-- ==== Sys2Proof/Word.lean ====
section
/-! DEFINITION. The one word of this hardware: every register, memory cell, immediate, the stack pointer, the
program counter and the return address are 8 bits wide (R10, R11, R14 of 10_state.md; R30 of 20_memory.md). -/

namespace Sys2Proof

/-- `Byte` of R7: the unsigned values 0 to 255. Bit 7 is the most significant (R6). -/
abbrev Byte := BitVec 8

end Sys2Proof
end

