-- ==== Sys2Proof/Syntax.lean ====
section
/-! DEFINITION. The instruction set: the closed list of nine instructions of R47 (30_encoding.md), one constructor
each. An operand is the operand byte as it stands in memory, `a` the first and `b` the second (R45, R46): whether a
register operand names a register is checked by the instruction itself (`RegIndex`, R49), because that check has its
place in the order of checks (R58). DEDUCED, log entry 3. -/

namespace Sys2Proof

/-- The nine instructions (R47), in the order of the opcode table. -/
inductive Instr where
  /-- `LDI a, imm` (R66). -/
  | ldi (a imm : Byte)
  /-- `ADD a, b` (R68). -/
  | add (a b : Byte)
  /-- `MUL a, b` (R69). -/
  | mul (a b : Byte)
  /-- `PRN a` (R71). -/
  | prn (a : Byte)
  /-- `PUSH a` (R75). -/
  | push (a : Byte)
  /-- `POP a` (R76). -/
  | pop (a : Byte)
  /-- `CALL a` (R78). -/
  | call (a : Byte)
  /-- `RET` (R79). -/
  | ret
  /-- `HALT` (R81). -/
  | halt
deriving DecidableEq, Repr

end Sys2Proof
end

