-- ==== Sys2Proof/Decode.lean ====
section
/-! DEFINITION. The decoder and the encoder (30_encoding.md). The decoder compares all eight bits of the opcode byte
with nine values and takes the operand count from the row that matched, from nowhere else (R47, R48): it is the
nine-way match R53 asks for, not a field decode. It is total on any bytes and names what it rejects. -/

namespace Sys2Proof

/-- The mnemonics of the opcode map (R47), before any operand is known. -/
inductive Mnemonic where
  | ldi | add | mul | prn | push | pop | call | ret | halt
deriving DecidableEq, Repr

/-- Why bytes spell no instruction. -/
inductive DecodeError where
  /-- There is no opcode byte: the bytes given are empty. -/
  | noOpcode
  /-- The opcode byte is none of the nine (R51); no operand byte is looked at. -/
  | illegalOpcode (op : Byte)
  /-- The opcode is in the table and an operand byte it calls for is missing (R45, R48). -/
  | missingOperand
deriving DecidableEq, Repr

/-- `Decode` of R47: the row of the opcode map a byte selects, or `none` for each of the 247 illegal bytes, which
share one default branch (R51). -/
def decodeOpcode (op : Byte) : Option Mnemonic :=
  match op.toNat with
  | 0x82 => some .ldi
  | 0xA0 => some .add
  | 0xA2 => some .mul
  | 0x47 => some .prn
  | 0x45 => some .push
  | 0x46 => some .pop
  | 0x50 => some .call
  | 0x11 => some .ret
  | 0x01 => some .halt
  | _ => none

/-- The operand count of a row (R47); the instruction is one byte longer (R45). -/
def Mnemonic.operandCount : Mnemonic → Nat
  | .ldi => 2
  | .add => 2
  | .mul => 2
  | .prn => 1
  | .push => 1
  | .pop => 1
  | .call => 1
  | .ret => 0
  | .halt => 0

/-- Format R (R46): the first byte is the operand. -/
def decodeOne (make : Byte → Instr) : List Byte → Except DecodeError (Instr × List Byte)
  | a :: rest => .ok (make a, rest)
  | [] => .error .missingOperand

/-- Formats RR and RI (R46): the first byte is `a`, the second `b`. -/
def decodeTwo (make : Byte → Byte → Instr) : List Byte → Except DecodeError (Instr × List Byte)
  | a :: b :: rest => .ok (make a b, rest)
  | [_] => .error .missingOperand
  | [] => .error .missingOperand

/-- The operand bytes of a matched row, in ascending address order (R45, R46); LDI's register comes first (conflict
C4). The bytes after the instruction are handed back. -/
def decodeOperands (m : Mnemonic) (bytes : List Byte) : Except DecodeError (Instr × List Byte) :=
  match m with
  | .ldi => decodeTwo .ldi bytes
  | .add => decodeTwo .add bytes
  | .mul => decodeTwo .mul bytes
  | .prn => decodeOne .prn bytes
  | .push => decodeOne .push bytes
  | .pop => decodeOne .pop bytes
  | .call => decodeOne .call bytes
  | .ret => .ok (.ret, bytes)
  | .halt => .ok (.halt, bytes)

/-- The instruction that the first bytes of a list spell, and the bytes after it (R45, R48). -/
def decode : List Byte → Except DecodeError (Instr × List Byte)
  | [] => .error .noOpcode
  | op :: rest =>
    match decodeOpcode op with
    | none => .error (.illegalOpcode op)
    | some m => decodeOperands m rest

/-- The row an instruction belongs to (R47). -/
def Instr.mnemonic : Instr → Mnemonic
  | .ldi _ _ => .ldi
  | .add _ _ => .add
  | .mul _ _ => .mul
  | .prn _ => .prn
  | .push _ => .push
  | .pop _ => .pop
  | .call _ => .call
  | .ret => .ret
  | .halt => .halt

/-- The opcode byte of a row (R47). -/
def Mnemonic.opcode : Mnemonic → Byte
  | .ldi => 0x82
  | .add => 0xA0
  | .mul => 0xA2
  | .prn => 0x47
  | .push => 0x45
  | .pop => 0x46
  | .call => 0x50
  | .ret => 0x11
  | .halt => 0x01

/-- The operand bytes of an instruction, first operand first (R45, R46). -/
def Instr.operandBytes : Instr → List Byte
  | .ldi a imm => [a, imm]
  | .add a b => [a, b]
  | .mul a b => [a, b]
  | .prn a => [a]
  | .push a => [a]
  | .pop a => [a]
  | .call a => [a]
  | .ret => []
  | .halt => []

/-- The bytes of an instruction, the opcode at the lowest address (R45, R46). -/
def Instr.encode (i : Instr) : List Byte := i.mnemonic.opcode :: i.operandBytes

/-- The bytes of the table's word `w` as the hardware stores them: bit 0 of `w` is bit 0 of the byte at the lowest
address, the next byte is bits 15 to 8, and every bit from `nbits` on is 0, up to the longest instruction's three
bytes (R6, R45; log entry 23). -/
def tableBytes (nbits w : Nat) : List Byte :=
  let v := w % 2 ^ nbits
  [BitVec.ofNat 8 v, BitVec.ofNat 8 (v / 2 ^ 8), BitVec.ofNat 8 (v / 2 ^ 16)]

/-- The instruction the decoder reads from a word numbered as the opcode table numbers it. -/
def decodeTableWord (nbits w : Nat) : Option Instr :=
  match decode (tableBytes nbits w) with
  | .ok (i, _) => some i
  | .error _ => none

/-- A register operand in the spelling of R54. -/
def spellReg (v : Byte) : String := "R" ++ toString v.toNat

/-- The spelling of R54: the mnemonic, then the operands separated by commas (the spec's decision D18; it is no
behaviour of the hardware). -/
def Instr.spelling : Instr → String
  | .ldi a imm => "LDI " ++ spellReg a ++ ", " ++ toString imm.toNat
  | .add a b => "ADD " ++ spellReg a ++ ", " ++ spellReg b
  | .mul a b => "MUL " ++ spellReg a ++ ", " ++ spellReg b
  | .prn a => "PRN " ++ spellReg a
  | .push a => "PUSH " ++ spellReg a
  | .pop a => "POP " ++ spellReg a
  | .call a => "CALL " ++ spellReg a
  | .ret => "RET"
  | .halt => "HALT"

end Sys2Proof
end

