-- ==== Sys2Proof/Config.lean ====
section
/-! DEFINITION. The constants of R4 (00_scope.md). The spec fixes every one of them and leaves no parameter and no
free value, so nothing here is opaque. -/

namespace Sys2Proof.Config

/-- Number of memory cells; addresses are 0 to 255 (R4 `MEM_SIZE`). -/
abbrev memSize : Nat := 256

/-- The highest register index, `NREG - 1` (R4, R49). -/
abbrev maxRegIndex : Nat := 7

/-- The register that is the stack pointer (R4 `SP_INDEX`, R12). -/
abbrev spIndex : Fin 8 := 7

/-- SP after reset and the bound of the overflow check (R4 `SP_TOP`; the spec's decisions D1 and D8). -/
abbrev spTop : Byte := 0xF4

/-- PC after reset (R4 `PC_RESET`; the spec's decision D2). -/
abbrev pcReset : Byte := 0

/-- The address `Load` writes the first byte of an image to (R4 `LOAD_BASE`). -/
abbrev loadBase : Nat := 0

/-- The greatest number of operand bytes of an instruction (R4 `MAX_OPERANDS`). -/
abbrev maxOperands : Nat := 2

/-- What a cell nothing has written since reset reads as: memory is zero after reset (R24, R27). -/
abbrev unwrittenByte : Byte := 0

end Sys2Proof.Config
end

