-- ==== Sys2Proof/Machine/State.lean ====
section
/-! DEFINITION. The whole state of the unit, as R9 (10_state.md) lists it, its value after reset (R24), and the
reasons a step of this model can stop without a next state. -/

namespace Sys2Proof.Machine

/-- The five fault kinds the unit can raise, a closed list of names without numbers (R82, R90 of 60_exceptions.md).
A fault of the unit is no stop of this model: it is taken, and the step answers a next state (R61; log entry 1). -/
inductive FaultKind where
  /-- Raised by `Load` of more than 256 bytes, never by a step (R87). -/
  | programTooLarge
  /-- Raised by the decode of a byte that is none of the nine opcodes (R83). -/
  | illegalInstruction
  /-- Raised by an operand fetch above 255, a register operand above 7, or a successor or return address above 255
  (R84). -/
  | outOfRangeAccess
  /-- Raised by PUSH and CALL with SP equal to 0 (R85). -/
  | stackUnderflow
  /-- Raised by POP and RET when the value to be incremented is 0xF4 or more (R86). -/
  | stackOverflow
deriving DecidableEq, Repr

/-- The run state `st` (R17). -/
inductive RunState where
  | running
  | halted
  | faulted (kind : FaultKind)
deriving DecidableEq, Repr

/-- The fault record (R18): the kind, `pc0` and the opcode byte at `pc0`; the last two are absent when `Load` faults
(R42), there being no instruction involved. -/
structure FaultRecord where
  kind : FaultKind
  pc : Option Byte
  opcode : Option Byte
deriving DecidableEq, Repr

/-- The memory array (R10): cells by address, strictly rising, none equal to what an unlisted address reads as
(`Memory.wf` in Machine/Ops.lean; log entry 4). -/
abbrev Memory := List Host.Cell

/-- The state of the unit (R9). `SP` is slot 7 of `regs` (R12) and `running` is a function of `st` (R17), so neither
has a field of its own (log entry 9). -/
structure State where
  /-- `mem[0]` to `mem[255]` (R10). -/
  mem : Memory
  /-- `x[0]` to `x[7]` (R11). -/
  regs : Vector Byte 8
  /-- The program counter (R14 to R16). -/
  pc : Byte
  /-- The run state (R17). -/
  st : RunState
  /-- `fault_rec`, absent until a fault is taken (R18). -/
  faultRec : Option FaultRecord
  /-- The values PRN has handed to the output sink, oldest first (R19; log entry 8). -/
  out : List Byte
deriving DecidableEq, Repr

/-- The reasons a step stops without a next state. There are none: every event the spec calls a fault has its effect
described (R61, R93) and is taken (log entry 1). Nobody raises one. -/
inductive Fault where
deriving DecidableEq, Repr

/-- The reasons this model has no meaning for an instruction. -/
inductive Refusal where
  /-- Raised by an arm of `exec` whose instruction has no meaning yet; safe, since nothing is claimed of it. No arm
  raises it. -/
  | notModelled (mnemonic : String)
deriving DecidableEq, Repr

/-- The machine right after reset (R24, R102): memory all zero, `x[0]` to `x[6]` zero, SP = 0xF4, PC = 0, running, no
fault record, nothing printed (the spec's decisions D1 and D2 in log entry 10). -/
def State.reset : State where
  mem := []
  regs := #v[0, 0, 0, 0, 0, 0, 0, Config.spTop]
  pc := Config.pcReset
  st := .running
  faultRec := none
  out := []

end Sys2Proof.Machine
end

