-- ==== Sys2Proof/Machine/Operands.lean ====
section
/-! DEFINITION. The operand forms (R49, R50 of 30_encoding.md): a register operand and LDI's immediate. No
instruction takes an address, an offset or a shift amount, and none takes a memory address from an operand. -/

namespace Sys2Proof.Machine

/-- `RegIndex(v)` (R49; decision D4): the whole operand byte is the index; 8 to 255 name no register, and the index is
not reduced modulo 8. -/
def regIndex (v : Byte) : Except FaultKind (Fin 8) :=
  if h : v.toNat < 8 then .ok ⟨v.toNat, h⟩ else .error .outOfRangeAccess

/-- LDI's immediate (R50; decision D22): the whole byte as it stands. -/
def immediate (v : Byte) : Byte := v

end Sys2Proof.Machine
end

