-- ==== Sys2Proof/Machine/Ops.lean ====
section
/-! DEFINITION. The named operations over memory, registers, the stack pointer, the program counter, the output
sequence and the run state, and taking a fault. Every instruction is written over these. -/

namespace Sys2Proof.Machine

/-! ### The memory array (R10) -/

/-- The byte at an address; an address the list does not hold reads 0 (R24, R27). -/
def Memory.read : Memory → Nat → Byte
  | [], _ => Config.unwrittenByte
  | c :: m, addr => if c.1 = addr then c.2 else Memory.read m addr

/-- The memory without its entry at an address. -/
def Memory.forget (m : Memory) (addr : Nat) : Memory := m.filter (fun c => c.1 != addr)

/-- An entry put before the first one of a greater or equal address. -/
def Memory.insert : Memory → Nat → Byte → Memory
  | [], addr, v => [(addr, v)]
  | c :: m, addr, v => if c.1 < addr then c :: Memory.insert m addr v else (addr, v) :: c :: m

/-- One cell written (R28). Writing what an unlisted address reads as removes the entry, so that equal memories are
equal lists. -/
def Memory.write (m : Memory) (addr : Nat) (v : Byte) : Memory :=
  if v = Config.unwrittenByte then m.forget addr else (m.forget addr).insert addr v

/-- Successive bytes written from an address upward, in order (the loop of R42). -/
def Memory.writeAll : Memory → Nat → List Byte → Memory
  | m, _, [] => m
  | m, addr, v :: vs => Memory.writeAll (m.write addr v) (addr + 1) vs

/-- The canonical form: addresses strictly rising and below 256, no entry equal to what an unlisted address reads
as. -/
abbrev Memory.wf (m : Memory) : Prop :=
  m.Pairwise (fun c d => c.1 < d.1) ∧ ∀ c ∈ m, c.1 < Config.memSize ∧ c.2 ≠ Config.unwrittenByte

/-! ### The two checked primitives (R27, R28) -/

/-- An address is in range when it is 0 to 255; it is never reduced modulo 256 first (R29). -/
def addrInRange (addr : Int) : Bool := decide (0 ≤ addr) && decide (addr < Config.memSize)

/-- `MemRead(addr, 1)` (R27). -/
def State.memRead (s : State) (addr : Int) : Except FaultKind Byte :=
  if addrInRange addr then .ok (s.mem.read addr.toNat) else .error .outOfRangeAccess

/-- `MemWrite(addr, 1, v)` (R28). -/
def State.memWrite (s : State) (addr : Int) (v : Byte) : Except FaultKind State :=
  if addrInRange addr then .ok { s with mem := s.mem.write addr.toNat v } else .error .outOfRangeAccess

/-! ### Registers (R11, R12) -/

/-- `x[i]` (R8). -/
def State.readReg (s : State) (i : Fin 8) : Byte := s.regs[i]

/-- `x[i] <- v` (R8). -/
def State.writeReg (s : State) (i : Fin 8) (v : Byte) : State := { s with regs := s.regs.set i v }

/-- `SP`, another spelling of `x[7]` (R12). -/
def State.sp (s : State) : Byte := s.readReg Config.spIndex

/-- The write of SP, the same cell as `x[7]` (R12). -/
def State.setSp (s : State) (v : Byte) : State := s.writeReg Config.spIndex v

/-! ### The stack pointer's two guarded updates (44_stack.md) -/

/-- `StackDec` (R73; decision D8): SP must not be decremented below 0. -/
def State.stackDec (s : State) : Except FaultKind State :=
  if s.sp = 0 then .error .stackUnderflow else .ok (s.setSp (s.sp - 1))

/-- `StackInc` (R74; decision D8): SP must not be incremented past 0xF4, a constant that does not follow explicit
writes of SP. -/
def State.stackInc (s : State) : Except FaultKind State :=
  if Config.spTop.toNat < s.sp.toNat + 1 then .error .stackOverflow else .ok (s.setSp (s.sp + 1))

/-! ### The program counter (R60) -/

/-- The successor address `pc0 + 1 + n`, computed without wraparound; above 255 it is a fault of the instruction
itself (R16, `NextPC` of R60; decision D5). -/
def successor (pc0 : Byte) (n : Nat) : Except FaultKind Byte :=
  if pc0.toNat + 1 + n < Config.memSize then .ok (BitVec.ofNat 8 (pc0.toNat + 1 + n)) else .error .outOfRangeAccess

/-- `PC <- target` (R8). -/
def State.setPc (s : State) (target : Byte) : State := { s with pc := target }

/-! ### Output and the run state -/

/-- `Out(v)` (R8, R19): a value appended to the output sequence. -/
def State.emit (s : State) (v : Byte) : State := { s with out := s.out ++ [v] }

/-- HALT's effect on the run state (R81). -/
def State.haltRun (s : State) : State := { s with st := .halted }

/-! ### Taking a fault (R61, R93)

There is no return from a fault, no handler and no vector (R94): only `Reset` leaves a faulted state. -/

/-- `FaultStep(kind)` (R61): the run state and the fault record change, and nothing else (decision D6). -/
def State.takeFault (s : State) (kind : FaultKind) : State :=
  { s with
    st := .faulted kind
    faultRec := some { kind := kind, pc := some s.pc, opcode := some (s.mem.read s.pc.toNat) } }

/-- A step is all or nothing (R59): the instruction has worked on a scratch copy, which becomes the state if no check
failed; if one did, the copy is dropped and the fault is taken in the state before the step. -/
def commit (s : State) (result : Except FaultKind State) : Host.Outcome State Fault Refusal :=
  match result with
  | .ok t => .next t
  | .error kind => .next (s.takeFault kind)

end Sys2Proof.Machine
end

