-- ==== Sys2Proof/Machine/Flags.lean ====
section
/-! DEFINITION. The ALU and every flag the spec gives. The unit stores no condition code (R20, 10_state.md): the
running flag is a view of the run state (R17), and `alu_ovf` is a combinational output of the ALU that nothing reads
(R67, 42_alu.md; log entry 7). -/

namespace Sys2Proof.Machine

/-- The running flag: true exactly when `st` is `Running` (R17, conflict C5). -/
def State.running (s : State) : Bool := decide (s.st = .running)

/-- The exact sum `e` of R67, 0 to 510. -/
def exactSum (p q : Byte) : Nat := p.toNat + q.toNat

/-- The exact product `e` of R67, 0 to 65025. -/
def exactProduct (p q : Byte) : Nat := p.toNat * q.toNat

/-- The ALU's `result` (R67): the exact value modulo 256. -/
def aluResult (exact : Nat) : Byte := BitVec.ofNat 8 exact

/-- The ALU's `alu_ovf` (R67; decision D15): the exact value did not fit in 8 bits. -/
def aluOvf (exact : Nat) : Bool := decide (255 < exact)

/-- `alu_ovf` while an ALU instruction executes without a register-operand fault; `none` where the ALU is not used. It
is not state and changes no behaviour (R20). -/
def aluOvfOf (i : Instr) (s : State) : Option Bool :=
  match i with
  | .add a b =>
    match regIndex a, regIndex b with
    | .ok ra, .ok rb => some (aluOvf (exactSum (s.readReg ra) (s.readReg rb)))
    | _, _ => none
  | .mul a b =>
    match regIndex a, regIndex b with
    | .ok ra, .ok rb => some (aluOvf (exactProduct (s.readReg ra) (s.readReg rb)))
    | _, _ => none
  | .ldi _ _ => none
  | .prn _ => none
  | .push _ => none
  | .pop _ => none
  | .call _ => none
  | .ret => none
  | .halt => none

end Sys2Proof.Machine
end

