-- ==== Sys2Proof/Machine/Alu.lean ====
section
/-! DEFINITION. ADD and MUL (42_alu.md). Both write the exact result modulo 256, store no flag, and raise nothing on
overflow (R67, R20). -/

namespace Sys2Proof.Machine

/-- The shape ADD and MUL share: `RegIndex(a)`, `RegIndex(b)`, the successor check, then `x[a]` and PC (R68, R69). -/
def aluInstruction (exact : Byte → Byte → Nat) (a b : Byte) (s : State) : Host.Outcome State Fault Refusal :=
  commit s do
    let ra ← regIndex a
    let rb ← regIndex b
    let next ← successor s.pc 2
    return (s.writeReg ra (aluResult (exact (s.readReg ra) (s.readReg rb)))).setPc next

/-- `ADD a, b` (R68). -/
def execAdd (a b : Byte) (s : State) : Host.Outcome State Fault Refusal := aluInstruction exactSum a b s

/-- `MUL a, b` (R69): the low 8 bits of the product. -/
def execMul (a b : Byte) (s : State) : Host.Outcome State Fault Refusal := aluInstruction exactProduct a b s

end Sys2Proof.Machine
end

