-- ==== Sys2Proof/Machine/Halt.lean ====
section
/-! DEFINITION. HALT (46_halt.md). -/

namespace Sys2Proof.Machine

/-- `HALT` (R81): the Machine is `Halted` and PC stays at the HALT byte (conflict C6). It raises nothing. -/
def execHalt (s : State) : Host.Outcome State Fault Refusal := commit s (.ok s.haltRun)

end Sys2Proof.Machine
end

