-- ==== Sys2Proof/Machine/LoadImmediate.lean ====
section
/-! DEFINITION. LDI (41_load_immediate.md). -/

namespace Sys2Proof.Machine

/-- `LDI a, imm` (R66): the register is the first operand, the value the second (conflict C4). Writing `x[7]` is
not checked (R12). -/
def execLdi (a imm : Byte) (s : State) : Host.Outcome State Fault Refusal :=
  commit s do
    let ra ← regIndex a
    let next ← successor s.pc 2
    return (s.writeReg ra (immediate imm)).setPc next

end Sys2Proof.Machine
end

