-- ==== Sys2Proof/Machine/Output.lean ====
section
/-! DEFINITION. PRN (43_output.md). -/

namespace Sys2Proof.Machine

/-- `PRN a` (R71): the register's value is appended to the output sequence and is not consumed. -/
def execPrn (a : Byte) (s : State) : Host.Outcome State Fault Refusal :=
  commit s do
    let ra ← regIndex a
    let next ← successor s.pc 1
    return (s.emit (s.readReg ra)).setPc next

end Sys2Proof.Machine
end

