-- ==== Sys2Proof/Machine/Stack.lean ====
section
/-! DEFINITION. PUSH and POP (44_stack.md). The statements of an effect act in the order written, each seeing the one
before (R59; decision D10), which shows when the register operand is 7. -/

namespace Sys2Proof.Machine

/-- `PUSH a` (R75): the register is read after SP is decremented, so PUSH 7 pushes the new SP. -/
def execPush (a : Byte) (s : State) : Host.Outcome State Fault Refusal :=
  commit s do
    let ra ← regIndex a
    let t ← s.stackDec
    let next ← successor s.pc 1
    let t ← t.memWrite t.sp.toNat (t.readReg ra)
    return t.setPc next

/-- `POP a` (R76): the register is written before SP is incremented, so POP 7 checks and increments the popped
value. -/
def execPop (a : Byte) (s : State) : Host.Outcome State Fault Refusal :=
  commit s do
    let ra ← regIndex a
    let v ← s.memRead s.sp.toNat
    let t ← (s.writeReg ra v).stackInc
    let next ← successor s.pc 1
    return t.setPc next

end Sys2Proof.Machine
end

