-- ==== Sys2Proof/Machine/Subroutine.lean ====
section
/-! DEFINITION. CALL and RET (45_subroutine.md), the only instructions that write PC from data. -/

namespace Sys2Proof.Machine

/-- `CALL a` (R78): the return address `pc0 + 2` goes to the new top of stack, and only then is the target register
read, so CALL 7 jumps to the new SP (decision D10). -/
def execCall (a : Byte) (s : State) : Host.Outcome State Fault Refusal :=
  commit s do
    let ra ← regIndex a
    let t ← s.stackDec
    let returnAddress ← successor s.pc 1
    let t ← t.memWrite t.sp.toNat returnAddress
    return t.setPc (t.readReg ra)

/-- `RET` (R79): the popped byte is the next PC, whoever pushed it; there is no successor check. -/
def execRet (s : State) : Host.Outcome State Fault Refusal :=
  commit s do
    let v ← s.memRead s.sp.toNat
    let t ← s.stackInc
    return t.setPc v

end Sys2Proof.Machine
end

