-- ==== Sys2Proof/Machine/Cycle.lean ====
section
/-! DEFINITION. One fetch-decode-execute cycle (R57, 40_execution_cycle.md) and a step outside `Running` (R62). -/

namespace Sys2Proof.Machine

/-- `n` operand bytes from an address upward, each by a checked read, the lower address first (R57). -/
def State.fetchOperands (s : State) (addr : Int) : Nat → Except FaultKind (List Byte)
  | 0 => .ok []
  | n + 1 => do
    let v ← s.memRead addr
    let vs ← s.fetchOperands (addr + 1) n
    return v :: vs

/-- The fault a step raises where the bytes at PC spell no instruction (R57, R58): an unknown opcode is illegal, a
missing operand byte would lie above 255. -/
def decodeFault : DecodeError → FaultKind
  | .noOpcode => .outOfRangeAccess
  | .illegalOpcode _ => .illegalInstruction
  | .missingOperand => .outOfRangeAccess

/-- Fetch and decode (R57): the opcode byte, then as many operand bytes as its row of the table calls for, none
before the opcode has matched (R33, R48). It reads memory as it is now (R38). -/
def State.fetch (s : State) : Except FaultKind Instr := do
  let op ← s.memRead s.pc.toNat
  match decodeOpcode op with
  | none => .error .illegalInstruction
  | some m =>
    let operands ← s.fetchOperands (s.pc.toNat + 1) m.operandCount
    match decode (op :: operands) with
    | .ok (i, _) => .ok i
    | .error e => .error (decodeFault e)

/-- `Step` when `st` is `Running` (R57). -/
def State.stepRunning (s : State) : Host.Outcome State Fault Refusal :=
  match s.fetch with
  | .ok i => exec i s
  | .error kind => .next (s.takeFault kind)

/-- `Step` in any run state: outside `Running` it changes nothing (R62; decision D11). -/
def State.cycle (s : State) : Host.Outcome State Fault Refusal :=
  if s.running then s.stepRunning else .next s

/-- The bytes of a table word stored from PC upward, as far as there are cells, and the Machine running with no fault
record, which it must be for the next step to fetch at all. A running Machine changes in memory only. It stands for
the `Load` of a program (R104) in the host's questions and is no operation of the hardware (log entry 2). -/
def State.placeAtPc (s : State) (bytes : List Byte) : State :=
  { s with
    mem := s.mem.writeAll s.pc.toNat (bytes.take (Config.memSize - s.pc.toNat))
    st := .running
    faultRec := if s.running then s.faultRec else none }

end Sys2Proof.Machine
end

