-- ==== Sys2Proof/Machine/HostOps.lean ====
section
/-! DEFINITION. The interface operations through which the host drives the unit (R25, 10_state.md), each indivisible
and issued between steps (R44, 20_memory.md; log entries 24 and 26). -/

namespace Sys2Proof.Machine

/-- The operations of R25. `Run` carries the host's step budget, because the hardware's `Run` need not return (R64;
log entry 6). -/
inductive HostOp where
  /-- R102. -/
  | reset
  /-- R42. -/
  | load (bytes : List Byte)
  /-- R57, R62. -/
  | step
  /-- R63. -/
  | run (budget : Nat)
  /-- R40: `addr` is any integer. -/
  | hostRead (addr : Int)
  /-- R41: `v` is 8 bits wide. -/
  | hostWrite (addr : Int) (v : Byte)
  /-- Observe `st` (R17). -/
  | observeSt
  /-- Observe `fault_rec` (R18). -/
  | observeFaultRec
  /-- Observe `out` (R19). -/
  | observeOut
deriving DecidableEq, Repr

/-- What an operation answers to the host (R25, column 'result'). -/
inductive Response where
  | none
  | ok
  | failed (kind : FaultKind)
  | byte (v : Byte)
  | runState (st : RunState)
  | record (r : Option FaultRecord)
  | output (out : List Byte)
deriving DecidableEq, Repr

/-- `Load(bytes)` (R42; decision D12): the length is checked before the first write; an oversize image writes nothing
and faults a running Machine, and a stopped one keeps its state and its record. A later `Load` clears nothing (R43). -/
def State.load (s : State) (bytes : List Byte) : Response × State :=
  if Config.memSize < bytes.length then
    (.failed .programTooLarge,
      if s.running then
        { s with
          st := .faulted .programTooLarge
          faultRec := some { kind := .programTooLarge, pc := Option.none, opcode := Option.none } }
      else s)
  else (.ok, { s with mem := s.mem.writeAll Config.loadBase bytes })

/-- `HostRead(addr)` (R40; decision D13). -/
def State.hostRead (s : State) (addr : Int) : Response × State :=
  match s.memRead addr with
  | .ok v => (.byte v, s)
  | .error kind => (.failed kind, s)

/-- `HostWrite(addr, v)` (R41; decision D13): it never changes the run state. -/
def State.hostWrite (s : State) (addr : Int) (v : Byte) : Response × State :=
  match s.memWrite addr v with
  | .ok t => (.ok, t)
  | .error kind => (.failed kind, s)

/-- The state after one `Step`. A step always answers a next state; the other two arms keep the state and are never
taken. -/
def State.afterStep (s : State) : State :=
  match Sys2Proof.Machine.step s with
  | .next t => t
  | .fault _ => s
  | .refused _ => s

/-- `Run` (R63) within a budget of steps: while `st` is `Running`, step. -/
def State.run (s : State) : Nat → State
  | 0 => s
  | budget + 1 => if s.running then s.afterStep.run budget else s

/-- One operation of the host: its answer and the state after it (R25). -/
def HostOp.perform (op : HostOp) (s : State) : Response × State :=
  match op with
  | .reset => (.none, State.reset)
  | .load bytes => s.load bytes
  | .step => (.runState s.afterStep.st, s.afterStep)
  | .run budget => (.runState (s.run budget).st, s.run budget)
  | .hostRead addr => s.hostRead addr
  | .hostWrite addr v => s.hostWrite addr v
  | .observeSt => (.runState s.st, s)
  | .observeFaultRec => (.record s.faultRec, s)
  | .observeOut => (.output s.out, s)

/-- The state after a sequence of operations, issued one at a time. -/
def performAll : List HostOp → State → State
  | [], s => s
  | op :: ops, s => performAll ops (op.perform s).2

end Sys2Proof.Machine
end

