-- ==== Sys2Proof/Safety.lean ====
section
/-! DEFINITION. The terms claims use: the invariant of the unit's states, the states a host can bring about, and the
rules of the spec that speak of a whole step (R13, R33, R58, R89) written out as data, apart from the meanings. -/

namespace Sys2Proof

/-! ### Tables about instructions (R13, R58, R89) -/

/-- The register operand bytes of an instruction, in the order they are checked (R46, R58 item 3). -/
def Instr.regOperands : Instr → List Byte
  | .ldi a _ => [a]
  | .add a b => [a, b]
  | .mul a b => [a, b]
  | .prn a => [a]
  | .push a => [a]
  | .pop a => [a]
  | .call a => [a]
  | .ret => []
  | .halt => []

/-- The register indices an instruction reads or writes, by the table of R13. -/
def Instr.regsUsed : Instr → List Nat
  | .ldi a _ => [a.toNat]
  | .add a b => [a.toNat, b.toNat]
  | .mul a b => [a.toNat, b.toNat]
  | .prn a => [a.toNat]
  | .push a => [7, a.toNat]
  | .pop a => [7, a.toNat]
  | .call a => [7, a.toNat]
  | .ret => [7]
  | .halt => []

/-- The register operand an instruction writes explicitly, by the table of R13; the implicit updates of SP are not
among them. -/
def Instr.destination : Instr → Option Nat
  | .ldi a _ => some a.toNat
  | .add a _ => some a.toNat
  | .mul a _ => some a.toNat
  | .prn _ => none
  | .push _ => none
  | .pop a => some a.toNat
  | .call _ => none
  | .ret => none
  | .halt => none

/-- The fault kinds an instruction can raise once it is fetched, by the table of R89. -/
def Instr.faultKinds : Instr → List Machine.FaultKind
  | .ldi _ _ => [.outOfRangeAccess]
  | .add _ _ => [.outOfRangeAccess]
  | .mul _ _ => [.outOfRangeAccess]
  | .prn _ => [.outOfRangeAccess]
  | .push _ => [.outOfRangeAccess, .stackUnderflow]
  | .pop _ => [.outOfRangeAccess, .stackOverflow]
  | .call _ => [.outOfRangeAccess, .stackUnderflow]
  | .ret => [.stackOverflow]
  | .halt => []

end Sys2Proof

namespace Sys2Proof.Machine

/-! ### The invariant -/

/-- The opcode bytes a fault kind can be recorded with (R83 to R86 of 60_exceptions.md). `Load`'s kind has none. -/
def faultFitsOpcode : FaultKind → Byte → Prop
  | .programTooLarge, _ => False
  | .illegalInstruction, op => decodeOpcode op = none
  | .outOfRangeAccess, op => op ∈ ([0x82, 0xA0, 0xA2, 0x47, 0x45, 0x46, 0x50] : List Byte)
  | .stackUnderflow, op => op ∈ ([0x45, 0x50] : List Byte)
  | .stackOverflow, op => op ∈ ([0x46, 0x11] : List Byte)

/-- The fault record agrees with the run state (R18, R42): absent unless the Machine has faulted; after a `Load` it
holds the kind alone; after a step it holds the kind, PC, which has stayed, and an opcode that can raise the kind. -/
def State.RecordMatches (s : State) : Prop :=
  match s.st with
  | .running => s.faultRec = none
  | .halted => s.faultRec = none
  | .faulted .programTooLarge => s.faultRec = some { kind := .programTooLarge, pc := none, opcode := none }
  | .faulted kind =>
    ∃ op, faultFitsOpcode kind op ∧ s.faultRec = some { kind := kind, pc := some s.pc, opcode := some op }

/-- The invariant: memory is in canonical form and the fault record agrees with the run state. That PC, the registers
and the cells lie in 0 to 255 (R10, R11, R14) is in their types. -/
structure State.Inv (s : State) : Prop where
  memory : s.mem.wf
  record : s.RecordMatches

/-- The states the host can bring about by operations of R25, issued one at a time. -/
inductive Reachable : State → Prop where
  | reset : Reachable State.reset
  | perform {s : State} (op : HostOp) : Reachable s → Reachable (op.perform s).2

/-- A safe run: however often the Machine is stepped, it never takes a fault. -/
def State.NeverFaults (s : State) : Prop := ∀ budget kind, (s.run budget).st ≠ .faulted kind

/-! ### A step as the spec describes it from outside -/

/-- The state a fault leaves (R61), written out: the run state and the record change and nothing else. -/
def State.faultedWith (s : State) (kind : FaultKind) : State where
  mem := s.mem
  regs := s.regs
  pc := s.pc
  st := .faulted kind
  faultRec := some { kind := kind, pc := some s.pc, opcode := some (s.mem.read s.pc.toNat) }
  out := s.out

/-- The bytes from an address on where each cell's contents are given, as many of the longest instruction's three as
have an address below 256. -/
def bytesFrom (cell : Nat → Byte) (pc : Byte) : List Byte :=
  (List.range (min (1 + Config.maxOperands) (Config.memSize - pc.toNat))).map (fun k => cell (pc.toNat + k))

/-- The bytes at PC. -/
def State.bytesAtPc (s : State) : List Byte := bytesFrom s.mem.read s.pc

/-- The step of `s` does what `cell` spells at PC (R57): it runs the instruction that those bytes decode to, and takes
the fault that an illegal opcode or a missing operand byte calls for. -/
def State.StepRunsCells (s : State) (cell : Nat → Byte) : Prop :=
  (∀ i rest, decode (bytesFrom cell s.pc) = .ok (i, rest) → Sys2Proof.Machine.step s = exec i s) ∧
  (∀ op, decode (bytesFrom cell s.pc) = .error (.illegalOpcode op) →
    Sys2Proof.Machine.step s = .next (s.faultedWith .illegalInstruction)) ∧
  (decode (bytesFrom cell s.pc) = .error .missingOperand →
    Sys2Proof.Machine.step s = .next (s.faultedWith .outOfRangeAccess))

/-! ### The order of checks (R58) -/

/-- One check of R58: whether it fails, and the kind it raises. -/
abbrev Check := Bool × FaultKind

/-- The kind of the first check that fails, if one does. -/
def firstFailing : List Check → Option FaultKind
  | [] => none
  | (fails, kind) :: checks => if fails then some kind else firstFailing checks

/-- Item 4 of R58: the stack bound. POP 7 is checked on the popped value (R76). -/
def stackChecks (s : State) : Instr → List Check
  | .push _ => [(s.sp == 0, .stackUnderflow)]
  | .call _ => [(s.sp == 0, .stackUnderflow)]
  | .pop a => [(decide (0xF4 ≤ (if a = 7 then s.mem.read s.sp.toNat else s.sp).toNat), .stackOverflow)]
  | .ret => [(decide (0xF4 ≤ s.sp.toNat), .stackOverflow)]
  | .ldi _ _ => []
  | .add _ _ => []
  | .mul _ _ => []
  | .prn _ => []
  | .halt => []

/-- Item 5 of R58: the successor address, for CALL the return address. RET and HALT have none (R79, R81). -/
def successorChecks (s : State) : Instr → List Check
  | .ldi _ _ => [(decide (255 < s.pc.toNat + 3), .outOfRangeAccess)]
  | .add _ _ => [(decide (255 < s.pc.toNat + 3), .outOfRangeAccess)]
  | .mul _ _ => [(decide (255 < s.pc.toNat + 3), .outOfRangeAccess)]
  | .prn _ => [(decide (255 < s.pc.toNat + 2), .outOfRangeAccess)]
  | .push _ => [(decide (255 < s.pc.toNat + 2), .outOfRangeAccess)]
  | .pop _ => [(decide (255 < s.pc.toNat + 2), .outOfRangeAccess)]
  | .call _ => [(decide (255 < s.pc.toNat + 2), .outOfRangeAccess)]
  | .ret => []
  | .halt => []

/-- Items 3 to 5 of R58, in their order. -/
def instrChecks (i : Instr) (s : State) : List Check :=
  i.regOperands.map (fun v => (decide (7 < v.toNat), .outOfRangeAccess)) ++ stackChecks s i ++ successorChecks s i

/-- The checks of a step in the order of R58. Items 1 and 2 are those of the fetch: the opcode is in the table, and
the operand bytes it calls for have an address. -/
def stepChecks (s : State) : List Check :=
  match decodeOpcode (s.mem.read s.pc.toNat) with
  | none => [(true, .illegalInstruction)]
  | some m =>
    (decide (255 < s.pc.toNat + m.operandCount), .outOfRangeAccess) ::
      match decode s.bytesAtPc with
      | .ok (i, _) => instrChecks i s
      | .error _ => []

end Sys2Proof.Machine
end

