-- ==== Sys2Proof/WellFormed.lean ====
section
/-! DEFINITION. Well-formed instructions: every register operand names a register (R49, 30_encoding.md). An
ill-formed instruction is still an instruction of the machine: executing it takes the `OutOfRangeAccess` fault
(R49, R84). The immediate of LDI is never checked (R50). -/

namespace Sys2Proof

/-- A register operand byte names one of the eight registers (R49); 7 names the stack pointer (R12). -/
def isRegOperand (v : Byte) : Bool := decide (v.toNat ≤ Config.maxRegIndex)

/-- Every register operand of the instruction names a register. -/
def Instr.wellFormed : Instr → Bool
  | .ldi a _ => isRegOperand a
  | .add a b => isRegOperand a && isRegOperand b
  | .mul a b => isRegOperand a && isRegOperand b
  | .prn a => isRegOperand a
  | .push a => isRegOperand a
  | .pop a => isRegOperand a
  | .call a => isRegOperand a
  | .ret => true
  | .halt => true

end Sys2Proof
end

