-- ==== Sys2Proof/Certificates/Slice0/Obligations.lean ====
section
/-! DEFINITION. The statements for the provers. Each says which rule of spec/ it formalises. `State.faultedWith` (R61
written out), `State.bytesAtPc`, `stepChecks` and the tables of R13 and R89 stand in Sys2Proof/Safety.lean. The spec's
own decisions (D1 to D25 of 92_eei_decisions.md) are named where a statement rests on one. A statement about `exec` from
every state takes in stopped states too, in which the hardware runs no instruction (log entry 5); `step` and the host's
operations are the hardware's. -/

open Sys2Proof Sys2Proof.Machine

/-! ### Reset and the state -/

/-- Every item of the state after reset, as 10_state.md section 9 lists them: SP and PC by the spec's decisions D1 and
D2 (log entry 10), the fault record and the output by what the spec marks as derived. -/
def Obligations.ResetGivesEveryItemItsValue : Prop :=
  (∀ addr, State.reset.mem.read addr = 0) ∧
  (∀ r : Fin 8, r.val < 7 → State.reset.regs[r] = 0) ∧
  State.reset.regs[7] = 0xF4 ∧ State.reset.pc = 0 ∧
  State.reset.st = .running ∧ State.reset.running = true ∧
  State.reset.faultRec = none ∧ State.reset.out = []

/-- The reset state meets the invariant, whose canonical memory is the model's own form (log entry 4). -/
def Obligations.ResetMeetsInvariant : Prop := State.reset.Inv

/-- Every step keeps the invariant: memory stays in the model's canonical form (log entry 4), and the fault record agrees
with the run state, with the kinds and opcodes of R83 to R86. -/
def Obligations.StepKeepsInvariant : Prop :=
  ∀ s t : State, s.Inv → step s = .next t → t.Inv

/-- Every operation of the host keeps the invariant: reset, load, step, run, the accessors and the observations. The
canonical memory of the invariant is the model's own form (log entry 4), and so is the budget of `Run` (log entry
6). -/
def Obligations.HostOperationKeepsInvariant : Prop :=
  ∀ (op : HostOp) (s : State), s.Inv → (op.perform s).2.Inv

/-- The corollary for reachable states: whatever operations the host issues from reset, the state meets the invariant
(whose canonical memory is the model's own form, log entry 4, as is the budget of `Run`, log entry 6), and a stack fault
is on record with an opcode that can raise it. -/
def Obligations.ReachableStatesMeetInvariant : Prop :=
  ∀ s : State, Reachable s →
    s.Inv ∧
    (s.st = .faulted .stackUnderflow →
      s.faultRec = some ⟨.stackUnderflow, some s.pc, some 0x45⟩ ∨
      s.faultRec = some ⟨.stackUnderflow, some s.pc, some 0x50⟩) ∧
    (s.st = .faulted .stackOverflow →
      s.faultRec = some ⟨.stackOverflow, some s.pc, some 0x46⟩ ∨
      s.faultRec = some ⟨.stackOverflow, some s.pc, some 0x11⟩)

/-- Two memories in canonical form that read alike at every address are the same list. -/
def Obligations.CanonicalMemoriesThatReadAlikeAreEqual : Prop :=
  ∀ m n : Memory, m.wf → n.wf → (∀ addr, m.read addr = n.read addr) → m = n

/-! ### Decoding and encoding -/

/-- R47: the nine rows of the opcode map with their values and operand counts; a byte selects a row only if it is that
row's value. -/
def Obligations.OpcodeMapIsTheNineRows : Prop :=
  ∀ (op : Byte) (m : Mnemonic),
    decodeOpcode op = some m ↔
      (op, m, m.operandCount) ∈ ([(0x82, .ldi, 2), (0xA0, .add, 2), (0xA2, .mul, 2), (0x47, .prn, 1),
        (0x45, .push, 1), (0x46, .pop, 1), (0x50, .call, 1), (0x11, .ret, 0), (0x01, .halt, 0)] :
          List (Byte × Mnemonic × Nat))

/-- Decoding and encoding agree in both directions, for every instruction with every operand byte: bytes decode to an
instruction exactly when they are its encoding followed by the bytes handed back. -/
def Obligations.DecodeAndEncodeAgree : Prop :=
  ∀ (i : Instr) (bytes rest : List Byte), decode bytes = .ok (i, rest) ↔ bytes = i.encode ++ rest

/-- A few instructions' bytes, written out from the opcode table's bit strings, decode to what they stand for. -/
def Obligations.WrittenOutWordsDecode : Prop :=
  decode [0b10000010, 0b00000011, 0b11111111] = .ok (.ldi 3 255, []) ∧
  decode [0b10100000, 0b00000000, 0b00000001] = .ok (.add 0 1, []) ∧
  decode [0b10100010, 0b00000101, 0b00000110] = .ok (.mul 5 6, []) ∧
  decode [0b01000111, 0b00000110] = .ok (.prn 6, []) ∧
  decode [0b01000101, 0b00000001] = .ok (.push 1, []) ∧
  decode [0b01000110, 0b00000010] = .ok (.pop 2, []) ∧
  decode [0b01010000, 0b00000111] = .ok (.call 7, []) ∧
  decode [0b00010001] = .ok (.ret, []) ∧
  decode [0b00000001] = .ok (.halt, [])

/-- The observation on the opcode's bits in 30_encoding.md section 4, which the spec marks as derived: bits 7 to 6 are the operand
count, bit 5 marks ADD and MUL, bit 4 marks CALL and RET. -/
def Obligations.OpcodeBitsAgreeWithTheRows : Prop :=
  ∀ m : Mnemonic,
    (m.opcode.extractLsb 7 6).toNat = m.operandCount ∧
    (m.opcode.getLsbD 5 = true ↔ m = .add ∨ m = .mul) ∧
    (m.opcode.getLsbD 4 = true ↔ m = .call ∨ m = .ret)

/-- R49: 0 to 7 name a register, 7 the stack pointer; a register operand of 8 to 255 faults before any state is changed,
whatever the rest of the state holds, which is decision D4 (log entry 12). That the well-formed instructions are those
without one is the model's own notion (log entry 3), and `exec` is taken in stopped states too (log entry 5). -/
def Obligations.RegisterOperandAboveSevenFaults : Prop :=
  (∀ (v : Byte) (h : v.toNat < 8), regIndex v = .ok ⟨v.toNat, h⟩) ∧
  (∀ s : State, s.sp = s.readReg 7) ∧
  (∀ v : Byte, 7 < v.toNat → regIndex v = .error .outOfRangeAccess) ∧
  (∀ i : Instr, i.wellFormed = true ↔ ∀ v ∈ i.regOperands, v.toNat ≤ 7) ∧
  ∀ (i : Instr) (s : State), (∃ v ∈ i.regOperands, 7 < v.toNat) →
    exec i s = .next (s.faultedWith .outOfRangeAccess)

/-! ### The step -/

/-- A step of a running Machine runs the instruction that the bytes at PC decode to, and where they decode to none it
takes the fault the decoder's answer calls for; the host is answered the run state (R57). Nothing is added around the
instruction. -/
def Obligations.StepRunsTheDecodedInstruction : Prop :=
  ∀ s : State, s.st = .running →
    (∀ i rest, decode s.bytesAtPc = .ok (i, rest) → step s = exec i s) ∧
    (∀ op, decode s.bytesAtPc = .error (.illegalOpcode op) → step s = .next (s.faultedWith .illegalInstruction)) ∧
    (decode s.bytesAtPc = .error .missingOperand → step s = .next (s.faultedWith .outOfRangeAccess)) ∧
    decode s.bytesAtPc ≠ .error .noOpcode ∧
    (∀ t, step s = .next t → HostOp.perform .step s = (.runState t.st, t))

/-- A table word placed where the next step fetches is what that step runs (the model's own helper, log entry 2), and
placing it in a running Machine changes nothing but the cells from PC on. -/
def Obligations.PlacedTableWordIsExecuted : Prop :=
  ∀ (s : State) (nbits w : Nat) (i : Instr),
    s.st = .running → s.pc.toNat ≤ 253 → decodeTableWord nbits w = some i →
    step (s.withFetchWord nbits w) = exec i (s.withFetchWord nbits w) ∧
    (s.withFetchWord nbits w).regs = s.regs ∧ (s.withFetchWord nbits w).pc = s.pc ∧
    (s.withFetchWord nbits w).st = s.st ∧ (s.withFetchWord nbits w).faultRec = s.faultRec ∧
    (s.withFetchWord nbits w).out = s.out ∧
    ∀ addr, ¬ (s.pc.toNat ≤ addr ∧ addr < s.pc.toNat + 3) →
      (s.withFetchWord nbits w).mem.read addr = s.mem.read addr

/-- Every step, from every state, answers a next state. That a fault of the unit is taken as a next state, and is no stop
of the model, is the model's choice of form (log entry 1). -/
def Obligations.EveryStepAnswersNext : Prop := ∀ s : State, ∃ t, step s = .next t

/-- R62: a step outside `Running` changes nothing and answers the run state as it is (decision D11, log entry 19). -/
def Obligations.StepOutsideRunningChangesNothing : Prop :=
  ∀ s : State, s.st ≠ .running → step s = .next s ∧ HostOp.perform .step s = (.runState s.st, s)

/-- R58: a step takes the fault of the first check that fails, in the order opcode, operand fetch, register index,
stack bound, successor address, and completes exactly when none fails (decision D7, log entry 15). -/
def Obligations.StepTakesTheFirstFailingCheck : Prop :=
  ∀ s : State, s.st = .running →
    (∀ kind, firstFailing (stepChecks s) = some kind → step s = .next (s.faultedWith kind)) ∧
    (firstFailing (stepChecks s) = none →
      ∃ t, step s = .next t ∧ (t.st = .running ∨ t.st = .halted) ∧ t.faultRec = s.faultRec)

/-- R61: a step that ends in a fault has changed the run state and the fault record and nothing else, and the record is
(kind, PC, opcode byte) (decision D6, log entry 14). -/
def Obligations.FaultingStepIsPrecise : Prop :=
  ∀ (s t : State) (kind : FaultKind), s.st = .running → step s = .next t → t.st = .faulted kind →
    t.mem = s.mem ∧ t.regs = s.regs ∧ t.pc = s.pc ∧ t.out = s.out ∧ t.running = false ∧
    t.faultRec = some ⟨kind, some s.pc, some (s.mem.read s.pc.toNat)⟩

/-- R51: each of the 247 bytes outside the table is an `IllegalInstruction` fault of the step that meets it, whatever
follows it and whatever the registers hold; it reads no operand byte, changes no register, cell or output, and leaves
PC. -/
def Obligations.IllegalOpcodeFaults : Prop :=
  ((List.range 256).filter (fun n => (decodeOpcode (BitVec.ofNat 8 n)).isNone)).length = 247 ∧
  ∀ s : State, s.st = .running →
    s.mem.read s.pc.toNat ∉ ([0x82, 0xA0, 0xA2, 0x47, 0x45, 0x46, 0x50, 0x11, 0x01] : List Byte) →
    step s = .next (s.faultedWith .illegalInstruction)

/-- R60: where PC goes. A completing step moves it by 1 plus the operand count without wrapping (so it faults where
that would pass 255), CALL and RET set it, HALT leaves it; a faulting step leaves it (decision D5, log entry 13). -/
def Obligations.ProgramCounterAfterAStep : Prop :=
  ∀ (s : State) (i : Instr) (rest : List Byte), s.st = .running → decode s.bytesAtPc = .ok (i, rest) →
    ∃ t, step s = .next t ∧
      (((∃ kind, t.st = .faulted kind) ∧ t.pc = s.pc) ∨
       ((t.st = .running ∨ t.st = .halted) ∧
        match i with
        | .ldi _ _ => t.pc.toNat = s.pc.toNat + 3
        | .add _ _ => t.pc.toNat = s.pc.toNat + 3
        | .mul _ _ => t.pc.toNat = s.pc.toNat + 3
        | .prn _ => t.pc.toNat = s.pc.toNat + 2
        | .push _ => t.pc.toNat = s.pc.toNat + 2
        | .pop _ => t.pc.toNat = s.pc.toNat + 2
        | .call a => ∃ h : a.toNat < 8, t.pc = (s.regs.set 7 (s.sp - 1))[a.toNat]
        | .ret => t.pc = s.mem.read s.sp.toNat
        | .halt => t.pc = s.pc))

/-! ### The instructions, each with its encoding, its result and its faults -/

/-- R66, LDI. -/
def Obligations.LdiLoadsItsImmediate : Prop :=
  (∀ (a imm : Byte) (rest : List Byte), decode (0x82 :: a :: imm :: rest) = .ok (.ldi a imm, rest)) ∧
  (∀ (a imm : Byte) (s : State),
    (∀ h : a.toNat < 8, s.pc.toNat + 3 ≤ 255 →
      exec (.ldi a imm) s = .next { s with regs := s.regs.set a.toNat imm, pc := s.pc + 3 }) ∧
    (7 < a.toNat → exec (.ldi a imm) s = .next (s.faultedWith .outOfRangeAccess)) ∧
    (a.toNat < 8 → 255 < s.pc.toNat + 3 → exec (.ldi a imm) s = .next (s.faultedWith .outOfRangeAccess))) ∧
  (∀ s : State, s.st = .running → s.mem.read s.pc.toNat = 0x82 → 255 < s.pc.toNat + 2 →
    step s = .next (s.faultedWith .outOfRangeAccess))

/-- R68, ADD: the sum modulo 256, and the combinational `alu_ovf` of R67. -/
def Obligations.AddAddsModulo256 : Prop :=
  (∀ (a b : Byte) (rest : List Byte), decode (0xA0 :: a :: b :: rest) = .ok (.add a b, rest)) ∧
  (∀ (a b : Byte) (s : State),
    (∀ (ha : a.toNat < 8) (hb : b.toNat < 8), s.pc.toNat + 3 ≤ 255 →
      exec (.add a b) s = .next { s with
        regs := s.regs.set a.toNat (BitVec.ofNat 8 ((s.regs[a.toNat].toNat + s.regs[b.toNat].toNat) % 256)),
        pc := s.pc + 3 } ∧
      aluOvfOf (.add a b) s = some (decide (255 < s.regs[a.toNat].toNat + s.regs[b.toNat].toNat))) ∧
    (7 < a.toNat ∨ 7 < b.toNat → exec (.add a b) s = .next (s.faultedWith .outOfRangeAccess)) ∧
    (a.toNat < 8 → b.toNat < 8 → 255 < s.pc.toNat + 3 →
      exec (.add a b) s = .next (s.faultedWith .outOfRangeAccess))) ∧
  (∀ s : State, s.st = .running → s.mem.read s.pc.toNat = 0xA0 → 255 < s.pc.toNat + 2 →
    step s = .next (s.faultedWith .outOfRangeAccess))

/-- R69, MUL: the low 8 bits of the product, and the combinational `alu_ovf` of R67. -/
def Obligations.MulMultipliesModulo256 : Prop :=
  (∀ (a b : Byte) (rest : List Byte), decode (0xA2 :: a :: b :: rest) = .ok (.mul a b, rest)) ∧
  (∀ (a b : Byte) (s : State),
    (∀ (ha : a.toNat < 8) (hb : b.toNat < 8), s.pc.toNat + 3 ≤ 255 →
      exec (.mul a b) s = .next { s with
        regs := s.regs.set a.toNat (BitVec.ofNat 8 ((s.regs[a.toNat].toNat * s.regs[b.toNat].toNat) % 256)),
        pc := s.pc + 3 } ∧
      aluOvfOf (.mul a b) s = some (decide (255 < s.regs[a.toNat].toNat * s.regs[b.toNat].toNat))) ∧
    (7 < a.toNat ∨ 7 < b.toNat → exec (.mul a b) s = .next (s.faultedWith .outOfRangeAccess)) ∧
    (a.toNat < 8 → b.toNat < 8 → 255 < s.pc.toNat + 3 →
      exec (.mul a b) s = .next (s.faultedWith .outOfRangeAccess))) ∧
  (∀ s : State, s.st = .running → s.mem.read s.pc.toNat = 0xA2 → 255 < s.pc.toNat + 2 →
    step s = .next (s.faultedWith .outOfRangeAccess))

/-- R71, PRN. -/
def Obligations.PrnAppendsTheRegister : Prop :=
  (∀ (a : Byte) (rest : List Byte), decode (0x47 :: a :: rest) = .ok (.prn a, rest)) ∧
  (∀ (a : Byte) (s : State),
    (∀ h : a.toNat < 8, s.pc.toNat + 2 ≤ 255 →
      exec (.prn a) s = .next { s with out := s.out ++ [s.regs[a.toNat]], pc := s.pc + 2 }) ∧
    (7 < a.toNat → exec (.prn a) s = .next (s.faultedWith .outOfRangeAccess)) ∧
    (a.toNat < 8 → 255 < s.pc.toNat + 2 → exec (.prn a) s = .next (s.faultedWith .outOfRangeAccess))) ∧
  (∀ s : State, s.st = .running → s.mem.read s.pc.toNat = 0x47 → s.pc = 255 →
    step s = .next (s.faultedWith .outOfRangeAccess))

/-- R75, PUSH: the register is read after the decrement (decision D10, log entry 18), the write goes to the old SP
less 1 wherever that is (D9, log entry 17), and the checks are made in the order written. -/
def Obligations.PushStoresBelowTheStackPointer : Prop :=
  (∀ (a : Byte) (rest : List Byte), decode (0x45 :: a :: rest) = .ok (.push a, rest)) ∧
  (∀ (a : Byte) (s : State),
    (∀ h : a.toNat < 8, s.sp ≠ 0 → s.pc.toNat + 2 ≤ 255 →
      exec (.push a) s = .next { s with
        regs := s.regs.set 7 (s.sp - 1),
        mem := s.mem.write (s.sp.toNat - 1) (s.regs.set 7 (s.sp - 1))[a.toNat],
        pc := s.pc + 2 }) ∧
    (7 < a.toNat → exec (.push a) s = .next (s.faultedWith .outOfRangeAccess)) ∧
    (a.toNat < 8 → s.sp = 0 → exec (.push a) s = .next (s.faultedWith .stackUnderflow)) ∧
    (a.toNat < 8 → s.sp ≠ 0 → 255 < s.pc.toNat + 2 →
      exec (.push a) s = .next (s.faultedWith .outOfRangeAccess))) ∧
  (∀ s : State, s.st = .running → s.mem.read s.pc.toNat = 0x45 → s.pc = 255 →
    step s = .next (s.faultedWith .outOfRangeAccess))

/-- R76, POP: `found` is the value SP holds when it is incremented, the popped value for POP 7 (decision D10, log
entry 18). -/
def Obligations.PopLoadsFromTheStackPointer : Prop :=
  (∀ (a : Byte) (rest : List Byte), decode (0x46 :: a :: rest) = .ok (.pop a, rest)) ∧
  (∀ (a v found : Byte) (s : State), v = s.mem.read s.sp.toNat → found = (if a = 7 then v else s.sp) →
    (∀ h : a.toNat < 8, found.toNat + 1 ≤ 0xF4 → s.pc.toNat + 2 ≤ 255 →
      exec (.pop a) s = .next { s with regs := (s.regs.set a.toNat v).set 7 (found + 1), pc := s.pc + 2 }) ∧
    (7 < a.toNat → exec (.pop a) s = .next (s.faultedWith .outOfRangeAccess)) ∧
    (a.toNat < 8 → 0xF4 < found.toNat + 1 → exec (.pop a) s = .next (s.faultedWith .stackOverflow)) ∧
    (a.toNat < 8 → found.toNat + 1 ≤ 0xF4 → 255 < s.pc.toNat + 2 →
      exec (.pop a) s = .next (s.faultedWith .outOfRangeAccess))) ∧
  (∀ s : State, s.st = .running → s.mem.read s.pc.toNat = 0x46 → s.pc = 255 →
    step s = .next (s.faultedWith .outOfRangeAccess))

/-- R78, CALL: the return address is `pc0 + 2`, and the target register is read after the decrement (decision D10, log
entry 18). -/
def Obligations.CallPushesTheReturnAddress : Prop :=
  (∀ (a : Byte) (rest : List Byte), decode (0x50 :: a :: rest) = .ok (.call a, rest)) ∧
  (∀ (a : Byte) (s : State),
    (∀ h : a.toNat < 8, s.sp ≠ 0 → s.pc.toNat + 2 ≤ 255 →
      exec (.call a) s = .next { s with
        regs := s.regs.set 7 (s.sp - 1),
        mem := s.mem.write (s.sp.toNat - 1) (s.pc + 2),
        pc := (s.regs.set 7 (s.sp - 1))[a.toNat] }) ∧
    (7 < a.toNat → exec (.call a) s = .next (s.faultedWith .outOfRangeAccess)) ∧
    (a.toNat < 8 → s.sp = 0 → exec (.call a) s = .next (s.faultedWith .stackUnderflow)) ∧
    (a.toNat < 8 → s.sp ≠ 0 → 255 < s.pc.toNat + 2 →
      exec (.call a) s = .next (s.faultedWith .outOfRangeAccess))) ∧
  (∀ s : State, s.st = .running → s.mem.read s.pc.toNat = 0x50 → s.pc = 255 →
    step s = .next (s.faultedWith .outOfRangeAccess))

/-- R79, RET. -/
def Obligations.RetPopsTheProgramCounter : Prop :=
  (∀ rest : List Byte, decode (0x11 :: rest) = .ok (.ret, rest)) ∧
  ∀ s : State,
    (s.sp.toNat + 1 ≤ 0xF4 →
      exec .ret s = .next { s with pc := s.mem.read s.sp.toNat, regs := s.regs.set 7 (s.sp + 1) }) ∧
    (0xF4 < s.sp.toNat + 1 → exec .ret s = .next (s.faultedWith .stackOverflow))

/-- R81, HALT: the run state changes and nothing else, at every address, and the Machine stays as it is under `Step`
and `Run`. -/
def Obligations.HaltStopsTheMachine : Prop :=
  (∀ rest : List Byte, decode (0x01 :: rest) = .ok (.halt, rest)) ∧
  (∀ s : State, exec .halt s = .next { s with st := .halted }) ∧
  (∀ s : State, s.st = .running → s.mem.read s.pc.toNat = 0x01 → step s = .next { s with st := .halted }) ∧
  (∀ s : State, s.st = .halted → s.running = false ∧ step s = .next s ∧ (∀ budget, s.run budget = s) ∧
    ∀ op, (HostOp.perform op s).2.st = .running ↔ op = .reset)

/-! ### Frames -/

/-- LDI, ADD and MUL: of the registers only the one their first operand names can change; no cell and no output
changes; the run state and the record change only when a fault is taken. -/
def Obligations.RegisterInstructionsFrame : Prop :=
  ∀ (a b : Byte) (s : State), ∀ i ∈ [Instr.ldi a b, Instr.add a b, Instr.mul a b],
    ∃ t, exec i s = .next t ∧
      (∀ r : Fin 8, r.val ≠ a.toNat → t.readReg r = s.readReg r) ∧
      (∀ addr, t.mem.read addr = s.mem.read addr) ∧
      t.out = s.out ∧
      ((t.st = s.st ∧ t.faultRec = s.faultRec) ∨ ∃ kind, t = s.faultedWith kind)

/-- PRN: no register and no cell changes; the output keeps what it held and grows by at most the named register's
value. -/
def Obligations.PrnFrame : Prop :=
  ∀ (a : Byte) (s : State), ∃ t, exec (.prn a) s = .next t ∧
    (∀ r, t.readReg r = s.readReg r) ∧
    (∀ addr, t.mem.read addr = s.mem.read addr) ∧
    (t.out = s.out ∨ ∃ r : Fin 8, r.val = a.toNat ∧ t.out = s.out ++ [s.readReg r]) ∧
    ((t.st = s.st ∧ t.faultRec = s.faultRec) ∨ ∃ kind, t = s.faultedWith kind)

/-- PUSH and CALL: of the registers only SP can change; the one cell stored to is at the SP that `stackDec` leaves,
and every other cell reads as before; where `stackDec` faults every cell does. -/
def Obligations.StoringInstructionsFrame : Prop :=
  ∀ (a : Byte) (s : State), ∀ i ∈ [Instr.push a, Instr.call a],
    ∃ t, exec i s = .next t ∧
      (∀ r : Fin 8, r ≠ 7 → t.readReg r = s.readReg r) ∧
      (∀ u, s.stackDec = .ok u → ∀ addr, addr ≠ u.sp.toNat → t.mem.read addr = s.mem.read addr) ∧
      (∀ kind, s.stackDec = .error kind → ∀ addr, t.mem.read addr = s.mem.read addr) ∧
      t.out = s.out ∧
      ((t.st = s.st ∧ t.faultRec = s.faultRec) ∨ ∃ kind, t = s.faultedWith kind)

/-- POP and RET: POP changes no register but its operand and SP, RET none but SP; no cell and no output changes. -/
def Obligations.LoadingInstructionsFrame : Prop :=
  ∀ (a : Byte) (s : State),
    (∃ t, exec (.pop a) s = .next t ∧
      (∀ r : Fin 8, r ≠ 7 → r.val ≠ a.toNat → t.readReg r = s.readReg r) ∧
      (∀ addr, t.mem.read addr = s.mem.read addr) ∧ t.out = s.out ∧
      ((t.st = s.st ∧ t.faultRec = s.faultRec) ∨ ∃ kind, t = s.faultedWith kind)) ∧
    (∃ t, exec .ret s = .next t ∧
      (∀ r : Fin 8, r ≠ 7 → t.readReg r = s.readReg r) ∧
      (∀ addr, t.mem.read addr = s.mem.read addr) ∧ t.out = s.out ∧
      ((t.st = s.st ∧ t.faultRec = s.faultRec) ∨ ∃ kind, t = s.faultedWith kind))

/-- A step, whatever it runs, writes at most the one cell below SP, and only where the opcode is PUSH's or CALL's
(R33). -/
def Obligations.StepWritesAtMostTheCellBelowSp : Prop :=
  ∀ s : State, ∃ t, step s = .next t ∧
    ∀ addr, ¬ (s.mem.read s.pc.toNat ∈ ([0x45, 0x50] : List Byte) ∧ s.sp ≠ 0 ∧ addr = s.sp.toNat - 1) →
      t.mem.read addr = s.mem.read addr

/-- R19: a step appends at most one value, only PRN's does, and nothing is removed or changed. -/
def Obligations.OnlyPrnProducesOutput : Prop :=
  ∀ s : State, ∃ t, step s = .next t ∧
    (t.out = s.out ∨
      (s.mem.read s.pc.toNat = 0x47 ∧ ∃ r : Fin 8, s.mem.read (s.pc.toNat + 1) = BitVec.ofNat 8 r.val ∧
        t.out = s.out ++ [s.readReg r]))

/-- R89: the fault kinds an instruction can raise once it is fetched. -/
def Obligations.FaultKindsByInstruction : Prop :=
  ∀ (i : Instr) (s : State), s.st = .running →
    ∃ t, exec i s = .next t ∧ ∀ kind, t.st = .faulted kind → kind ∈ i.faultKinds

/-- A register that the table of R13 gives an instruction no use of does not matter to it: the instruction does the
same whatever that register holds, and leaves it. -/
def Obligations.UnnamedRegistersDoNotMatter : Prop :=
  ∀ (i : Instr) (s : State) (r : Fin 8) (v : Byte), r.val ∉ i.regsUsed →
    ∃ t, exec i s = .next t ∧ t.readReg r = s.readReg r ∧ exec i (s.writeReg r v) = .next (t.writeReg r v)

/-- What a program cannot observe: a step does the same, and emits the same, whatever the output so far and the fault
record hold (R18, R19). -/
def Obligations.OutputAndFaultRecordAreNotRead : Prop :=
  ∀ s u : State, s.mem = u.mem → s.regs = u.regs → s.pc = u.pc → s.st = u.st →
    ∃ t w emitted, step s = .next t ∧ step u = .next w ∧
      t.mem = w.mem ∧ t.regs = w.regs ∧ t.pc = w.pc ∧ t.st = w.st ∧
      t.out = s.out ++ emitted ∧ w.out = u.out ++ emitted

/-! ### The primitives and the ALU -/

/-- R27: the checked read. -/
def Obligations.MemReadChecksItsAddress : Prop :=
  ∀ (s : State) (addr : Int),
    (addr < 0 ∨ 255 < addr → s.memRead addr = .error .outOfRangeAccess) ∧
    (0 ≤ addr → addr ≤ 255 → s.memRead addr = .ok (s.mem.read addr.toNat))

/-- The checked write of 20_memory.md section 1 changes that one cell and nothing else; that it keeps the canonical form
is about the model's own form of memory (log entry 4). -/
def Obligations.MemWriteChangesOneCell : Prop :=
  ∀ (s : State) (addr : Int) (v : Byte),
    (addr < 0 ∨ 255 < addr → s.memWrite addr v = .error .outOfRangeAccess) ∧
    (0 ≤ addr → addr ≤ 255 →
      ∃ t, s.memWrite addr v = .ok t ∧ t.memRead addr = .ok v ∧
        (∀ x : Int, x ≠ addr → t.memRead x = s.memRead x) ∧
        t.regs = s.regs ∧ t.pc = s.pc ∧ t.st = s.st ∧ t.faultRec = s.faultRec ∧ t.out = s.out ∧
        (s.mem.wf → t.mem.wf))

/-- R73 and R74: the decrement and the increment check of SP. The overflow bound is the constant 0xF4 (decision D8, log
entry 16). -/
def Obligations.StackPointerChecks : Prop :=
  ∀ s : State,
    (s.sp = 0 → s.stackDec = .error .stackUnderflow) ∧
    (s.sp ≠ 0 → ∃ t, s.stackDec = .ok t ∧ t.sp.toNat + 1 = s.sp.toNat ∧ t = s.writeReg 7 t.sp) ∧
    (0xF4 < s.sp.toNat + 1 → s.stackInc = .error .stackOverflow) ∧
    (s.sp.toNat + 1 ≤ 0xF4 → ∃ t, s.stackInc = .ok t ∧ t.sp.toNat = s.sp.toNat + 1 ∧ t = s.writeReg 7 t.sp)

/-- R67: the ALU's result is the exact sum or product modulo 256, its low 8 bits; `alu_ovf` says that the exact value
has a bit above them (decision D15, log entry 7). -/
def Obligations.AluResultAndOverflow : Prop :=
  ∀ p q : Byte,
    exactSum p q = p.toNat + q.toNat ∧ exactProduct p q = p.toNat * q.toNat ∧
    ∀ e ∈ [exactSum p q, exactProduct p q],
      (aluResult e).toNat = e % 256 ∧
      aluResult e = (BitVec.ofNat 16 e).extractLsb 7 0 ∧
      (aluOvf e = true ↔ 255 < e) ∧
      (aluOvf e = true ↔ (BitVec.ofNat 16 e).extractLsb 15 8 ≠ 0)

/-- The laws of the two operations in 42_alu.md section 3: commutativity, associativity, distributivity, the
identities, and that a two's-complement reading gives the same low 8 bits (the last three the spec marks as
derived). -/
def Obligations.AluLaws : Prop :=
  ∀ p q r : Byte,
    aluResult (exactSum p q) = aluResult (exactSum q p) ∧
    aluResult (exactProduct p q) = aluResult (exactProduct q p) ∧
    aluResult (exactSum (aluResult (exactSum p q)) r) = aluResult (exactSum p (aluResult (exactSum q r))) ∧
    aluResult (exactProduct (aluResult (exactProduct p q)) r) =
      aluResult (exactProduct p (aluResult (exactProduct q r))) ∧
    aluResult (exactProduct p (aluResult (exactSum q r))) =
      aluResult (exactSum (aluResult (exactProduct p q)) (aluResult (exactProduct p r))) ∧
    aluResult (exactSum p 0) = p ∧ aluResult (exactProduct p 1) = p ∧ aluResult (exactProduct p 0) = 0 ∧
    aluResult (exactSum p q) = BitVec.ofInt 8 (p.toInt + q.toInt) ∧
    aluResult (exactProduct p q) = BitVec.ofInt 8 (p.toInt * q.toInt)

/-! ### The stack as software meets it -/

/-- The matched pair of 44_stack.md section 3, which the spec marks as derived: PUSH r, then anything that leaves SP
and the pushed cell as PUSH left them, then POP r restores the register and SP, for every r from 0 to 7; and for n and
m other than 7, PUSH n then POP m copies. -/
def Obligations.PushThenPopRestores : Prop :=
  ∀ (s : State) (n m : Fin 8), 1 ≤ s.sp.toNat → s.sp.toNat ≤ 0xF4 → s.pc.toNat ≤ 253 →
    ∃ t, exec (.push (BitVec.ofNat 8 n.val)) s = .next t ∧
      ∀ u : State, u.sp = t.sp → u.mem.read t.sp.toNat = t.mem.read t.sp.toNat → u.pc.toNat ≤ 253 →
        ∃ w, exec (.pop (BitVec.ofNat 8 m.val)) u = .next w ∧ w.mem = u.mem ∧
          (m = n → w.readReg n = s.readReg n ∧ w.sp = s.sp) ∧
          (n ≠ 7 → m ≠ 7 → w.readReg m = s.readReg n ∧ w.sp = s.sp)

/-- From an SP at its top, 244 pushes succeed, whatever stands between them, as long as it leaves SP as the push left
it; the next one underflows (44_stack.md section 2). -/
def Obligations.StackHolds244BytesFromItsTop : Prop :=
  ∀ (trace : Nat → State) (a : Byte), a.toNat < 8 → (trace 0).sp = State.reset.sp →
    (∀ k, (trace k).pc.toNat ≤ 253) →
    (∀ k < 244, ∃ t, exec (.push a) (trace k) = .next t ∧ (trace (k + 1)).sp = t.sp) →
    (∀ k < 244, ∃ t, exec (.push a) (trace k) = .next t ∧ t.st = (trace k).st ∧ t.sp.toNat = 243 - k) ∧
    exec (.push a) (trace 244) = .next ((trace 244).faultedWith .stackUnderflow)

/-- The pairing of 45_subroutine.md (its last rule, which the spec marks as derived): CALL at c, then anything that
leaves SP and the return address as CALL left them, then RET resumes at c + 2 with SP as before; and PUSH n followed
by RET is a jump to the address in register n (n other than 7) with no net change of SP. -/
def Obligations.CallThenRetResumes : Prop :=
  ∀ (s : State) (n : Fin 8), 1 ≤ s.sp.toNat → s.sp.toNat ≤ 0xF4 → s.pc.toNat ≤ 253 →
    (∃ t, exec (.call (BitVec.ofNat 8 n.val)) s = .next t ∧
      ∀ u : State, u.sp = t.sp → u.mem.read t.sp.toNat = t.mem.read t.sp.toNat →
        ∃ w, exec .ret u = .next w ∧ w.pc.toNat = s.pc.toNat + 2 ∧ w.sp = s.sp) ∧
    (n ≠ 7 → ∃ t w, exec (.push (BitVec.ofNat 8 n.val)) s = .next t ∧ exec .ret t = .next w ∧
      w.pc = s.readReg n ∧ w.sp = s.sp)

/-- From an SP at or below its top, a step of an instruction that does not name register 7 as its destination moves SP
by at most one and never past the top (44_stack.md section 1). -/
def Obligations.ImplicitUpdatesKeepSpWithinItsTop : Prop :=
  ∀ (s : State) (i : Instr), s.sp.toNat ≤ 0xF4 → i.destination ≠ some 7 →
    ∃ t, exec i s = .next t ∧ t.sp.toNat ≤ 0xF4 ∧
      (t.sp = s.sp ∨ t.sp.toNat + 1 = s.sp.toNat ∨ t.sp.toNat = s.sp.toNat + 1)

/-- R38 (decision D21, log entry 22): a byte stored by HostWrite, Load, PUSH or CALL is what every later step fetches
from its cell, as opcode or as operand, for as long as the cell holds it: whatever else has happened to the Machine since,
the step of a running Machine does what the bytes at PC spell with the stored byte in its place. There is no copy of the
memory and no delay. -/
def Obligations.StoresAreSeenByTheNextFetch : Prop :=
  ∀ s u : State, u.st = .running →
    (∀ addr v : Byte, u.mem.read addr.toNat = (s.hostWrite addr.toNat v).2.mem.read addr.toNat →
      u.StepRunsCells (fun x => if x = addr.toNat then v else u.mem.read x)) ∧
    (∀ image : List Byte, image.length ≤ 256 →
      (∀ x < image.length, u.mem.read x = (s.load image).2.mem.read x) →
      u.StepRunsCells (fun x => if h : x < image.length then image[x] else u.mem.read x)) ∧
    (∀ (a : Byte) (h : a.toNat < 8), s.sp ≠ 0 → s.pc.toNat + 2 ≤ 255 →
      (∃ t, exec (.push a) s = .next t ∧
        (u.mem.read t.sp.toNat = t.mem.read t.sp.toNat →
          u.StepRunsCells (fun x =>
            if x = s.sp.toNat - 1 then (s.regs.set 7 (s.sp - 1))[a.toNat] else u.mem.read x))) ∧
      (∃ t, exec (.call a) s = .next t ∧
        (u.mem.read t.sp.toNat = t.mem.read t.sp.toNat →
          u.StepRunsCells (fun x => if x = s.sp.toNat - 1 then s.pc + 2 else u.mem.read x))))

/-! ### The run and the host's operations -/

/-- `Run` is nothing but repeated `Step` (40_execution_cycle.md section 5): it reaches the states a sequence of `Step`
calls reaches, and on a Machine that is not running it returns at once. The budget, that budgets add up and that a
greater one changes nothing once the Machine has stopped are about the model's `Run` (log entry 6). -/
def Obligations.RunIsRepeatedStep : Prop :=
  ∀ s : State,
    (∀ budget, performAll (List.replicate budget .step) s = s.run budget) ∧
    (∀ m n, s.run (m + n) = (s.run m).run n) ∧
    (∀ n, (s.run n).st ≠ .running → ∀ m, n ≤ m → s.run m = s.run n) ∧
    (s.st ≠ .running → ∀ budget, HostOp.perform (.run budget) s = (.runState s.st, s))

/-- R64: `Run` need not return: some state steps for ever, and does so without a fault. -/
def Obligations.RunNeedNotReturn : Prop :=
  ∃ s : State, s.NeverFaults ∧ ∀ budget, (s.run budget).st = .running

/-- A run is safe exactly when every step it makes passes every check of R58. -/
def Obligations.SafeRunIffEveryCheckPasses : Prop :=
  ∀ s : State, (∀ kind, s.st ≠ .faulted kind) →
    (s.NeverFaults ↔
      ∀ budget, (s.run budget).st = .running → firstFailing (stepChecks (s.run budget)) = none)

/-- R56: the transition table of the run state, over every operation of the host. -/
def Obligations.RunStateTransitions : Prop :=
  ∀ s : State,
    (HostOp.perform .reset s).2.st = .running ∧
    (s.st = .running →
      ((HostOp.perform .step s).2.st = .halted ↔ ∃ rest, decode s.bytesAtPc = .ok (.halt, rest)) ∧
      (∀ kind, (HostOp.perform .step s).2.st = .faulted kind ↔ firstFailing (stepChecks s) = some kind) ∧
      (∀ bytes, 256 < bytes.length → (HostOp.perform (.load bytes) s).2.st = .faulted .programTooLarge)) ∧
    (s.st ≠ .running →
      (HostOp.perform .step s).2.st = s.st ∧ (∀ budget, (HostOp.perform (.run budget) s).2.st = s.st) ∧
      (∀ bytes, 256 < bytes.length → HostOp.perform (.load bytes) s = (.failed .programTooLarge, s))) ∧
    (∀ bytes, bytes.length ≤ 256 → (HostOp.perform (.load bytes) s).2.st = s.st) ∧
    (∀ addr, (HostOp.perform (.hostRead addr) s).2.st = s.st) ∧
    (∀ addr v, (HostOp.perform (.hostWrite addr v) s).2.st = s.st)

/-- R94 and R102: there is no resumption. Whatever the host does short of `Reset`, a stopped Machine keeps its run state,
its first fault record, its registers, PC and output; `Reset` gives the reset state, whatever was before. -/
def Obligations.StoppedMachineStaysStopped : Prop :=
  (∀ (ops : List HostOp) (s : State), s.st ≠ .running → HostOp.reset ∉ ops →
    (performAll ops s).st = s.st ∧ (performAll ops s).faultRec = s.faultRec ∧
    (performAll ops s).regs = s.regs ∧ (performAll ops s).pc = s.pc ∧ (performAll ops s).out = s.out) ∧
  ∀ s : State, (HostOp.perform .reset s).2 = State.reset

/-- R42: `Load`. An image of at most 256 bytes is copied to address 0 upward and nothing else changes; a longer one
writes nothing, and faults the Machine if it was running (decision D12, log entry 20). -/
def Obligations.LoadCopiesTheImage : Prop :=
  ∀ (s : State) (bytes : List Byte),
    (bytes.length ≤ 256 → ∃ t, s.load bytes = (.ok, t) ∧
      (∀ i (h : i < bytes.length), t.mem.read i = bytes[i]) ∧
      (∀ addr, bytes.length ≤ addr → t.mem.read addr = s.mem.read addr) ∧
      t.regs = s.regs ∧ t.pc = s.pc ∧ t.st = s.st ∧ t.faultRec = s.faultRec ∧ t.out = s.out) ∧
    (256 < bytes.length → s.st = .running → ∃ t, s.load bytes = (.failed .programTooLarge, t) ∧
      t.st = .faulted .programTooLarge ∧ t.running = false ∧ t.faultRec = some ⟨.programTooLarge, none, none⟩ ∧
      t.mem = s.mem ∧ t.regs = s.regs ∧ t.pc = s.pc ∧ t.out = s.out) ∧
    (256 < bytes.length → s.st ≠ .running → s.load bytes = (.failed .programTooLarge, s))

/-- R43: a later `Load` leaves the cells beyond its image as an earlier one left them, and a repeated one is as good as
one. -/
def Obligations.LaterLoadLeavesTheRemainder : Prop :=
  ∀ (s : State) (first second : List Byte), first.length ≤ 256 → second.length ≤ 256 →
    ∃ t, (s.load first).2.load second = (.ok, t) ∧
      (∀ i (h : i < second.length), t.mem.read i = second[i]) ∧
      (∀ i (h : i < first.length), second.length ≤ i → t.mem.read i = first[i]) ∧
      (∀ addr, first.length ≤ addr → second.length ≤ addr → t.mem.read addr = s.mem.read addr) ∧
      t.regs = s.regs ∧ t.pc = s.pc ∧ t.st = s.st ∧ t.faultRec = s.faultRec ∧ t.out = s.out

/-- R40 and R41: the raw accessors, in every run state (decision D13, log entry 21). -/
def Obligations.HostAccessorsInEveryRunState : Prop :=
  ∀ (s : State) (addr : Int) (v : Byte),
    (addr < 0 ∨ 255 < addr →
      s.hostRead addr = (.failed .outOfRangeAccess, s) ∧ s.hostWrite addr v = (.failed .outOfRangeAccess, s)) ∧
    (0 ≤ addr → addr ≤ 255 →
      s.hostRead addr = (.byte (s.mem.read addr.toNat), s) ∧
      ∃ t, s.hostWrite addr v = (.ok, t) ∧ t.hostRead addr = (.byte v, t) ∧
        (∀ x : Int, x ≠ addr → (t.hostRead x).1 = (s.hostRead x).1) ∧
        t.regs = s.regs ∧ t.pc = s.pc ∧ t.st = s.st ∧ t.faultRec = s.faultRec ∧ t.out = s.out)

/-- No operation of the host but `Reset`, `Step` and `Run` changes a register, PC or the output (R25), and the
observations answer what the state holds. -/
def Obligations.HostCannotReachTheRegisters : Prop :=
  (∀ (op : HostOp) (s : State), op ≠ .reset → op ≠ .step → (∀ budget, op ≠ .run budget) →
    (op.perform s).2.regs = s.regs ∧ (op.perform s).2.pc = s.pc ∧ (op.perform s).2.out = s.out) ∧
  ∀ s : State,
    HostOp.perform .observeSt s = (.runState s.st, s) ∧
    HostOp.perform .observeFaultRec s = (.record s.faultRec, s) ∧
    HostOp.perform .observeOut s = (.output s.out, s)

/-- The boot sequence of 70_reset_and_hazards.md section 2: after `Reset` and `Load`, the first step runs the
instruction the image begins with; and without a `Load` it faults with (IllegalInstruction, 0, 0x00), which is R103 of
section 1, a rule the spec marks as derived. -/
def Obligations.BootRunsTheFirstInstruction : Prop :=
  (∀ (s : State) (image rest : List Byte) (i : Instr), image.length ≤ 256 → decode image = .ok (i, rest) →
    step (performAll [.reset, .load image] s) = exec i (performAll [.reset, .load image] s)) ∧
  ∃ t, step State.reset = .next t ∧ t.st = .faulted .illegalInstruction ∧
    t.faultRec = some ⟨.illegalInstruction, some 0, some 0x00⟩
end

