-- ==== Sys2Proof/Laws/Memory.lean ====
section
/-! SUPPORT. What the memory operations do: one cell changes, every other reads as before, and the canonical form is
kept. -/

namespace Sys2Proof.Machine.Memory

@[simp] theorem read_nil (addr : Nat) : Memory.read [] addr = 0 := rfl

theorem read_cons (c : Host.Cell) (m : Memory) (addr : Nat) :
    Memory.read (c :: m) addr = if c.1 = addr then c.2 else Memory.read m addr := rfl

theorem read_forget_same (m : Memory) (addr : Nat) : (m.forget addr).read addr = 0 := by
  induction m with
  | nil => rfl
  | cons c m ih =>
    by_cases h : c.1 = addr
    · simpa [Memory.forget, h] using ih
    · simpa [Memory.forget, h, read_cons] using ih

theorem read_forget_other (m : Memory) {addr x : Nat} (hx : x ≠ addr) : (m.forget addr).read x = m.read x := by
  induction m with
  | nil => rfl
  | cons c m ih =>
    by_cases h : c.1 = addr
    · have hc : c.1 ≠ x := fun e => hx (e ▸ h)
      simpa [Memory.forget, h, read_cons, hc, hx.symm] using ih
    · simp only [Memory.forget] at ih
      simp [Memory.forget, h, read_cons, ih]

theorem read_insert_other (m : Memory) (v : Byte) {addr x : Nat} (hx : x ≠ addr) :
    (m.insert addr v).read x = m.read x := by
  induction m with
  | nil => simp [Memory.insert, read_cons, hx.symm]
  | cons c m ih =>
    by_cases h : c.1 < addr
    · simp [Memory.insert, h, read_cons, ih]
    · simp [Memory.insert, h, read_cons, hx.symm]

theorem read_insert_same (m : Memory) (v : Byte) (addr : Nat) : (m.insert addr v).read addr = v := by
  induction m with
  | nil => simp [Memory.insert, read_cons]
  | cons c m ih =>
    by_cases h : c.1 < addr
    · have hc : c.1 ≠ addr := by omega
      simpa [Memory.insert, h, read_cons, hc] using ih
    · simp [Memory.insert, h, read_cons]

/-- A read after a write to the same address gives the value written. -/
@[simp] theorem read_write_same (m : Memory) (addr : Nat) (v : Byte) : (m.write addr v).read addr = v := by
  unfold Memory.write
  split
  · simp_all [read_forget_same]
  · exact read_insert_same _ v addr

/-- A write leaves every other address alone. -/
theorem read_write_other (m : Memory) (v : Byte) {addr x : Nat} (hx : x ≠ addr) :
    (m.write addr v).read x = m.read x := by
  unfold Memory.write
  split
  · exact read_forget_other m hx
  · rw [read_insert_other _ v hx, read_forget_other m hx]

theorem read_write (m : Memory) (addr x : Nat) (v : Byte) :
    (m.write addr v).read x = if x = addr then v else m.read x := by
  split
  · subst x; exact read_write_same m addr v
  · exact read_write_other m v ‹_›

theorem mem_insert {m : Memory} {addr : Nat} {v : Byte} {c : Host.Cell} :
    c ∈ m.insert addr v ↔ c = (addr, v) ∨ c ∈ m := by
  induction m with
  | nil => simp [Memory.insert]
  | cons d m ih =>
    by_cases h : d.1 < addr
    · simp only [Memory.insert, h, if_true, List.mem_cons, ih]; tauto
    · simp [Memory.insert, h]

theorem forget_wf {m : Memory} (h : m.wf) (addr : Nat) : (m.forget addr).wf :=
  ⟨h.1.filter _, fun c hc => h.2 c (List.mem_of_mem_filter hc)⟩

theorem pairwise_insert {m : Memory} {addr : Nat} {v : Byte} (h : m.Pairwise (fun c d => c.1 < d.1))
    (hfree : ∀ c ∈ m, c.1 ≠ addr) : (m.insert addr v).Pairwise (fun c d => c.1 < d.1) := by
  induction m with
  | nil => simp [Memory.insert]
  | cons c m ih =>
    obtain ⟨hc, hm⟩ := List.pairwise_cons.mp h
    by_cases hlt : c.1 < addr
    · simp only [Memory.insert, hlt, if_true]
      refine List.pairwise_cons.mpr ⟨fun d hd => ?_, ih hm fun d hd => hfree d (List.mem_cons_of_mem c hd)⟩
      rcases mem_insert.mp hd with rfl | hd
      · exact hlt
      · exact hc d hd
    · simp only [Memory.insert, hlt, if_false]
      refine List.pairwise_cons.mpr ⟨fun d hd => ?_, h⟩
      have hne := hfree c List.mem_cons_self
      rcases List.mem_cons.mp hd with rfl | hd
      · show addr < d.1; omega
      · have := hc d hd; show addr < d.1; omega

/-- A write to an address of the unit keeps the canonical form. -/
theorem write_wf {m : Memory} (h : m.wf) {addr : Nat} (ha : addr < 256) (v : Byte) : (m.write addr v).wf := by
  have hf := forget_wf h addr
  unfold Memory.write
  split
  · exact hf
  · refine ⟨pairwise_insert hf.1 fun c hc e => ?_, fun c hc => ?_⟩
    · simp [Memory.forget, e] at hc
    · rcases mem_insert.mp hc with rfl | hc
      · exact ⟨ha, ‹_›⟩
      · exact hf.2 c hc

@[simp] theorem writeAll_nil (m : Memory) (addr : Nat) : m.writeAll addr [] = m := rfl

@[simp] theorem writeAll_cons (m : Memory) (addr : Nat) (v : Byte) (vs : List Byte) :
    m.writeAll addr (v :: vs) = (m.write addr v).writeAll (addr + 1) vs := rfl

/-- Writing bytes within the address space keeps the canonical form. -/
theorem writeAll_wf {m : Memory} (h : m.wf) {addr : Nat} {vs : List Byte} (hfit : addr + vs.length ≤ 256) :
    (m.writeAll addr vs).wf := by
  induction vs generalizing m addr with
  | nil => exact h
  | cons v vs ih =>
    rw [List.length_cons] at hfit
    exact ih (write_wf h (by omega) v) (by omega)

/-- After writing successive bytes, their addresses read those bytes and every other address reads as before. -/
theorem read_writeAll (m : Memory) (addr x : Nat) (vs : List Byte) :
    (m.writeAll addr vs).read x =
      if h : addr ≤ x ∧ x - addr < vs.length then vs[x - addr]'h.2 else m.read x := by
  induction vs generalizing m addr with
  | nil => simp
  | cons v vs ih =>
    rw [writeAll_cons, ih, read_write]
    rcases lt_trichotomy x addr with h | h | h
    · rw [dif_neg (by omega), if_neg (by omega), dif_neg (by omega)]
    · subst h; rw [dif_neg (by omega), if_pos rfl, dif_pos (by simp)]; simp
    · have hx : x - addr = (x - (addr + 1)) + 1 := by omega
      by_cases hl : x - (addr + 1) < vs.length
      · rw [dif_pos ⟨by omega, hl⟩, dif_pos ⟨by omega, by rw [List.length_cons]; omega⟩]
        simp [hx]
      · rw [dif_neg (by omega), if_neg (by omega), dif_neg (by rw [List.length_cons]; omega)]

end Sys2Proof.Machine.Memory
end

