-- ==== Sys2Proof/Laws/State.lean ====
section
/-! SUPPORT. One lemma per field per update of the state, so that no later proof unfolds a record update. -/

namespace Sys2Proof.Machine.State

/-! ### `writeReg` and `setSp` -/

@[simp] theorem writeReg_mem (s : State) (i : Fin 8) (v : Byte) : (s.writeReg i v).mem = s.mem := rfl
@[simp] theorem writeReg_regs (s : State) (i : Fin 8) (v : Byte) : (s.writeReg i v).regs = s.regs.set i v := rfl
@[simp] theorem writeReg_pc (s : State) (i : Fin 8) (v : Byte) : (s.writeReg i v).pc = s.pc := rfl
@[simp] theorem writeReg_st (s : State) (i : Fin 8) (v : Byte) : (s.writeReg i v).st = s.st := rfl
@[simp] theorem writeReg_faultRec (s : State) (i : Fin 8) (v : Byte) : (s.writeReg i v).faultRec = s.faultRec := rfl
@[simp] theorem writeReg_out (s : State) (i : Fin 8) (v : Byte) : (s.writeReg i v).out = s.out := rfl

@[simp] theorem readReg_writeReg (s : State) (i j : Fin 8) (v : Byte) :
    (s.writeReg i v).readReg j = if i = j then v else s.readReg j := by
  simp [readReg, writeReg, Vector.getElem_set, Fin.ext_iff]

@[simp] theorem setSp_mem (s : State) (v : Byte) : (s.setSp v).mem = s.mem := rfl
@[simp] theorem setSp_regs (s : State) (v : Byte) : (s.setSp v).regs = s.regs.set 7 v := rfl
@[simp] theorem setSp_pc (s : State) (v : Byte) : (s.setSp v).pc = s.pc := rfl
@[simp] theorem setSp_st (s : State) (v : Byte) : (s.setSp v).st = s.st := rfl
@[simp] theorem setSp_faultRec (s : State) (v : Byte) : (s.setSp v).faultRec = s.faultRec := rfl
@[simp] theorem setSp_out (s : State) (v : Byte) : (s.setSp v).out = s.out := rfl

@[simp] theorem sp_setSp (s : State) (v : Byte) : (s.setSp v).sp = v := by
  simp [sp, setSp]

@[simp] theorem readReg_setSp (s : State) (j : Fin 8) (v : Byte) :
    (s.setSp v).readReg j = if Config.spIndex = j then v else s.readReg j := readReg_writeReg s _ j v

@[simp] theorem sp_writeReg (s : State) (i : Fin 8) (v : Byte) :
    (s.writeReg i v).sp = if i = Config.spIndex then v else s.sp := readReg_writeReg s i _ v

/-! ### `setPc` -/

@[simp] theorem setPc_mem (s : State) (p : Byte) : (s.setPc p).mem = s.mem := rfl
@[simp] theorem setPc_regs (s : State) (p : Byte) : (s.setPc p).regs = s.regs := rfl
@[simp] theorem setPc_pc (s : State) (p : Byte) : (s.setPc p).pc = p := rfl
@[simp] theorem setPc_st (s : State) (p : Byte) : (s.setPc p).st = s.st := rfl
@[simp] theorem setPc_faultRec (s : State) (p : Byte) : (s.setPc p).faultRec = s.faultRec := rfl
@[simp] theorem setPc_out (s : State) (p : Byte) : (s.setPc p).out = s.out := rfl
@[simp] theorem readReg_setPc (s : State) (p : Byte) (j : Fin 8) : (s.setPc p).readReg j = s.readReg j := rfl
@[simp] theorem sp_setPc (s : State) (p : Byte) : (s.setPc p).sp = s.sp := rfl

/-! ### `emit` -/

@[simp] theorem emit_mem (s : State) (v : Byte) : (s.emit v).mem = s.mem := rfl
@[simp] theorem emit_regs (s : State) (v : Byte) : (s.emit v).regs = s.regs := rfl
@[simp] theorem emit_pc (s : State) (v : Byte) : (s.emit v).pc = s.pc := rfl
@[simp] theorem emit_st (s : State) (v : Byte) : (s.emit v).st = s.st := rfl
@[simp] theorem emit_faultRec (s : State) (v : Byte) : (s.emit v).faultRec = s.faultRec := rfl
@[simp] theorem emit_out (s : State) (v : Byte) : (s.emit v).out = s.out ++ [v] := rfl
@[simp] theorem readReg_emit (s : State) (v : Byte) (j : Fin 8) : (s.emit v).readReg j = s.readReg j := rfl

/-! ### `haltRun` -/

@[simp] theorem haltRun_mem (s : State) : s.haltRun.mem = s.mem := rfl
@[simp] theorem haltRun_regs (s : State) : s.haltRun.regs = s.regs := rfl
@[simp] theorem haltRun_pc (s : State) : s.haltRun.pc = s.pc := rfl
@[simp] theorem haltRun_st (s : State) : s.haltRun.st = .halted := rfl
@[simp] theorem haltRun_faultRec (s : State) : s.haltRun.faultRec = s.faultRec := rfl
@[simp] theorem haltRun_out (s : State) : s.haltRun.out = s.out := rfl

/-! ### `takeFault` -/

@[simp] theorem takeFault_mem (s : State) (k : FaultKind) : (s.takeFault k).mem = s.mem := rfl
@[simp] theorem takeFault_regs (s : State) (k : FaultKind) : (s.takeFault k).regs = s.regs := rfl
@[simp] theorem takeFault_pc (s : State) (k : FaultKind) : (s.takeFault k).pc = s.pc := rfl
@[simp] theorem takeFault_st (s : State) (k : FaultKind) : (s.takeFault k).st = .faulted k := rfl
@[simp] theorem takeFault_faultRec (s : State) (k : FaultKind) :
    (s.takeFault k).faultRec = some ⟨k, some s.pc, some (s.mem.read s.pc.toNat)⟩ := rfl
@[simp] theorem takeFault_out (s : State) (k : FaultKind) : (s.takeFault k).out = s.out := rfl
@[simp] theorem readReg_takeFault (s : State) (k : FaultKind) (j : Fin 8) :
    (s.takeFault k).readReg j = s.readReg j := rfl

/-- Taking a fault leaves the state that R61 writes out. -/
theorem takeFault_eq (s : State) (k : FaultKind) : s.takeFault k = s.faultedWith k := rfl

/-! ### `faultedWith` -/

@[simp] theorem faultedWith_mem (s : State) (k : FaultKind) : (s.faultedWith k).mem = s.mem := rfl
@[simp] theorem faultedWith_regs (s : State) (k : FaultKind) : (s.faultedWith k).regs = s.regs := rfl
@[simp] theorem faultedWith_pc (s : State) (k : FaultKind) : (s.faultedWith k).pc = s.pc := rfl
@[simp] theorem faultedWith_st (s : State) (k : FaultKind) : (s.faultedWith k).st = .faulted k := rfl
@[simp] theorem faultedWith_faultRec (s : State) (k : FaultKind) :
    (s.faultedWith k).faultRec = some ⟨k, some s.pc, some (s.mem.read s.pc.toNat)⟩ := rfl
@[simp] theorem faultedWith_out (s : State) (k : FaultKind) : (s.faultedWith k).out = s.out := rfl

/-! ### The running flag -/

theorem running_iff (s : State) : s.running = true ↔ s.st = .running := by
  simp [State.running]

end Sys2Proof.Machine.State
end

