-- ==== Sys2Proof/Laws/Ops.lean ====
section
/-! SUPPORT. One lemma per shared operation: everything it can do. Proofs cite these instead of unfolding the
operation. -/

namespace Sys2Proof.Machine

/-! ### Addresses and the two primitives -/

theorem addrInRange_iff (addr : Int) : addrInRange addr = true ↔ 0 ≤ addr ∧ addr < 256 := by
  simp [addrInRange]

/-- A read at a byte's value is always in range. -/
@[simp] theorem State.memRead_byte (s : State) (a : Byte) : s.memRead a.toNat = .ok (s.mem.read a.toNat) := by
  have := a.isLt
  rw [State.memRead, if_pos ((addrInRange_iff _).mpr (by omega))]; rfl

theorem State.memRead_below (s : State) {n : Nat} (h : n < 256) : s.memRead n = .ok (s.mem.read n) := by
  rw [State.memRead, if_pos ((addrInRange_iff _).mpr (by omega))]; rfl

theorem State.memRead_above (s : State) {n : Nat} (h : 256 ≤ n) : s.memRead n = .error .outOfRangeAccess := by
  rw [State.memRead, if_neg (by rw [addrInRange_iff]; omega)]

/-- A write at a byte's value is always in range and changes the memory alone. -/
@[simp] theorem State.memWrite_byte (s : State) (a v : Byte) :
    s.memWrite a.toNat v = .ok { s with mem := s.mem.write a.toNat v } := by
  have := a.isLt
  rw [State.memWrite, if_pos ((addrInRange_iff _).mpr (by omega))]; rfl

/-! ### Operands and PC -/

theorem regIndex_ok {v : Byte} (h : v.toNat < 8) : regIndex v = .ok ⟨v.toNat, h⟩ := dif_pos h

theorem regIndex_error {v : Byte} (h : 7 < v.toNat) : regIndex v = .error .outOfRangeAccess := dif_neg (by omega)

@[simp] theorem immediate_eq (v : Byte) : immediate v = v := rfl

theorem successor_ok {pc0 : Byte} {n : Nat} (h : pc0.toNat + 1 + n ≤ 255) :
    successor pc0 n = .ok (BitVec.ofNat 8 (pc0.toNat + 1 + n)) := if_pos (show _ < 256 by omega)

theorem successor_error {pc0 : Byte} {n : Nat} (h : 255 < pc0.toNat + 1 + n) :
    successor pc0 n = .error .outOfRangeAccess := if_neg (show ¬ _ < 256 by omega)

/-- A successor address that is given is the exact sum. -/
theorem successor_exact {pc0 p : Byte} {n : Nat} (h : successor pc0 n = .ok p) : p.toNat = pc0.toNat + 1 + n := by
  unfold successor at h
  split at h
  · cases h; rw [BitVec.toNat_ofNat]; exact Nat.mod_eq_of_lt ‹_›
  · cases h

/-! ### The stack pointer -/

theorem State.stackDec_ok {s : State} (h : s.sp ≠ 0) : s.stackDec = .ok (s.setSp (s.sp - 1)) := if_neg h

theorem State.stackDec_error {s : State} (h : s.sp = 0) : s.stackDec = .error .stackUnderflow := if_pos h

theorem State.stackInc_ok {s : State} (h : s.sp.toNat < 0xF4) : s.stackInc = .ok (s.setSp (s.sp + 1)) :=
  if_neg (show ¬ 0xF4 < s.sp.toNat + 1 by omega)

theorem State.stackInc_error {s : State} (h : 0xF4 ≤ s.sp.toNat) : s.stackInc = .error .stackOverflow :=
  if_pos (show 0xF4 < s.sp.toNat + 1 by omega)

/-! ### Committing -/

@[simp] theorem commit_ok (s t : State) : commit s (.ok t) = .next t := rfl

@[simp] theorem commit_error (s : State) (k : FaultKind) : commit s (.error k) = .next (s.faultedWith k) := rfl

/-- What committing can answer: the scratch copy, or the fault taken in the state before. -/
theorem commit_next {s t : State} {r : Except FaultKind State} (h : commit s r = .next t) :
    r = .ok t ∨ ∃ k, r = .error k ∧ t = s.faultedWith k := by
  cases r with
  | ok u => cases h; exact .inl rfl
  | error k => cases h; exact .inr ⟨k, rfl, rfl⟩

/-! ### Sequencing of checks -/

@[simp] theorem bind_ok {α β : Type} (x : α) (f : α → Except FaultKind β) :
    ((Except.ok x : Except FaultKind α) >>= f) = f x := rfl

@[simp] theorem bind_error {α β : Type} (k : FaultKind) (f : α → Except FaultKind β) :
    ((Except.error k : Except FaultKind α) >>= f) = Except.error k := rfl

/-- A sequence that succeeds: its first part does, and so does the rest. -/
theorem bind_eq_ok {α β : Type} {x : Except FaultKind α} {f : α → Except FaultKind β} {b : β}
    (h : (x >>= f) = .ok b) : ∃ a, x = .ok a ∧ f a = .ok b := by
  cases x with
  | ok a => exact ⟨a, rfl, h⟩
  | error k => cases h

/-- A sequence that fails: its first part does, or it succeeds and the rest fails. -/
theorem bind_eq_error {α β : Type} {x : Except FaultKind α} {f : α → Except FaultKind β} {k : FaultKind}
    (h : (x >>= f) = .error k) : x = .error k ∨ ∃ a, x = .ok a ∧ f a = .error k := by
  cases x with
  | ok a => exact .inr ⟨a, rfl, h⟩
  | error k' => cases h; exact .inl rfl

end Sys2Proof.Machine
end

