-- ==== Sys2Proof/Laws/Cycle.lean ====
section
/-! SUPPORT. What fetching reads, what the host's operations and `run` do, and the small lemmas of the definitions in
Safety. -/

namespace Sys2Proof.Machine

@[simp] theorem memSize_eq : Config.memSize = 256 := rfl
@[simp] theorem maxOperands_eq : Config.maxOperands = 2 := rfl

/-! ### The bytes at PC -/

theorem State.bytesAtPc_three {s : State} (h : s.pc.toNat ≤ 253) :
    s.bytesAtPc = [s.mem.read s.pc.toNat, s.mem.read (s.pc.toNat + 1), s.mem.read (s.pc.toNat + 2)] := by
  rw [State.bytesAtPc, bytesFrom, show min (1 + Config.maxOperands) (Config.memSize - s.pc.toNat) = 3 by
    simp only [memSize_eq, maxOperands_eq]; omega]
  rfl

theorem State.bytesAtPc_two {s : State} (h : s.pc.toNat = 254) :
    s.bytesAtPc = [s.mem.read s.pc.toNat, s.mem.read (s.pc.toNat + 1)] := by
  rw [State.bytesAtPc, bytesFrom, show min (1 + Config.maxOperands) (Config.memSize - s.pc.toNat) = 2 by
    simp only [memSize_eq, maxOperands_eq]; omega]
  rfl

theorem State.bytesAtPc_one {s : State} (h : s.pc.toNat = 255) : s.bytesAtPc = [s.mem.read s.pc.toNat] := by
  rw [State.bytesAtPc, bytesFrom, show min (1 + Config.maxOperands) (Config.memSize - s.pc.toNat) = 1 by
    simp only [memSize_eq, maxOperands_eq]; omega]
  rfl

/-- Cells that hold what memory reads spell what the state's own bytes spell. -/
theorem bytesFrom_of_reads {s : State} {cell : Nat → Byte} (h : ∀ addr, cell addr = s.mem.read addr) :
    bytesFrom cell s.pc = s.bytesAtPc := by
  rw [State.bytesAtPc, funext h]

/-! ### Fetching operand bytes -/

@[simp] theorem State.fetchOperands_zero (s : State) (addr : Int) : s.fetchOperands addr 0 = .ok [] := rfl

theorem State.fetchOperands_one (s : State) (addr : Int) :
    s.fetchOperands addr 1 = (s.memRead addr).map (fun v => [v]) := by
  simp only [State.fetchOperands]
  cases s.memRead addr <;> rfl

theorem State.fetchOperands_two (s : State) (addr : Int) :
    s.fetchOperands addr 2 = (do let v ← s.memRead addr; let w ← s.memRead (addr + 1); return [v, w]) := by
  simp only [State.fetchOperands]
  cases s.memRead addr with
  | error k => rfl
  | ok v => cases s.memRead (addr + 1) <;> rfl

/-! ### The order of checks -/

@[simp] theorem firstFailing_nil : firstFailing [] = none := rfl

theorem firstFailing_cons (p : Prop) [Decidable p] (k : FaultKind) (checks : List Check) :
    firstFailing ((decide p, k) :: checks) = if p then some k else firstFailing checks := by
  simp [firstFailing]

theorem firstFailing_beq (v w : Byte) (k : FaultKind) (checks : List Check) :
    firstFailing ((v == w, k) :: checks) = if v = w then some k else firstFailing checks := by
  simp [firstFailing]

/-! ### The host's operations -/

theorem State.load_fits {s : State} {bytes : List Byte} (h : bytes.length ≤ 256) :
    s.load bytes = (.ok, { s with mem := s.mem.writeAll 0 bytes }) := if_neg (show ¬ 256 < _ by omega)

theorem State.load_tooLarge {s : State} {bytes : List Byte} (h : 256 < bytes.length) :
    s.load bytes = (.failed .programTooLarge,
      if s.running then
        { s with st := .faulted .programTooLarge, faultRec := some ⟨.programTooLarge, Option.none, Option.none⟩ }
      else s) := if_pos h

/-- A host read changes nothing. -/
theorem State.hostRead_state (s : State) (addr : Int) : (s.hostRead addr).2 = s := by
  unfold State.hostRead
  split <;> rfl

/-- A host write changes nothing, or one cell in range. -/
theorem State.hostWrite_state (s : State) (addr : Int) (v : Byte) :
    (s.hostWrite addr v).2 = s ∨
      (0 ≤ addr ∧ addr ≤ 255 ∧ (s.hostWrite addr v).2 = { s with mem := s.mem.write addr.toNat v }) := by
  unfold State.hostWrite State.memWrite
  by_cases h : addrInRange addr
  · obtain ⟨h0, h1⟩ := (addrInRange_iff addr).mp h
    simp only [h, if_true]
    exact .inr ⟨h0, by omega, trivial⟩
  · simp [h]

theorem State.afterStep_eq {s t : State} (h : Sys2Proof.Machine.step s = .next t) : s.afterStep = t := by
  simp [State.afterStep, h]

@[simp] theorem State.run_zero (s : State) : s.run 0 = s := rfl

theorem State.run_succ_of_running {s : State} (h : s.st = .running) (n : Nat) :
    s.run (n + 1) = s.afterStep.run n := by
  simp [State.run, State.running, h]

/-- A property that a step keeps, a run keeps. -/
theorem State.run_keeps {P : State → Prop} (keeps : ∀ s, P s → P s.afterStep) {s : State} (h : P s) (n : Nat) :
    P (s.run n) := by
  induction n generalizing s with
  | zero => exact h
  | succ n ih =>
    unfold State.run
    split
    · exact ih (keeps s h)
    · exact h

@[simp] theorem performAll_nil (s : State) : performAll [] s = s := rfl
@[simp] theorem performAll_cons (op : HostOp) (ops : List HostOp) (s : State) :
    performAll (op :: ops) s = performAll ops (op.perform s).2 := rfl

/-- A property that holds at reset and that every operation of the host keeps holds of every reachable state. -/
theorem Reachable.keeps {P : State → Prop} (atReset : P State.reset)
    (kept : ∀ (op : HostOp) (s : State), P s → P (op.perform s).2) {s : State} (h : Reachable s) : P s := by
  induction h with
  | reset => exact atReset
  | perform op _ ih => exact kept op _ ih

end Sys2Proof.Machine
end

