-- ==== Sys2Proof/Laws/PerInstr.lean ====
section
/-! SUPPORT. Statements about every instruction as syntax, one lemma per constructor. -/

namespace Sys2Proof.Laws

/-- The encoding of an instruction has the length of its row of the opcode map and starts with the row's opcode, which
the decoder matches to that row (R45, R48). -/
def EncodeShape.Statement (i : Instr) : Prop :=
  i.encode.length = 1 + i.mnemonic.operandCount ∧
  i.encode.head? = some i.mnemonic.opcode ∧
  decodeOpcode i.mnemonic.opcode = some i.mnemonic

theorem EncodeShape.ldi (a imm : Byte) : EncodeShape.Statement (.ldi a imm) := ⟨rfl, rfl, rfl⟩
theorem EncodeShape.add (a b : Byte) : EncodeShape.Statement (.add a b) := ⟨rfl, rfl, rfl⟩
theorem EncodeShape.mul (a b : Byte) : EncodeShape.Statement (.mul a b) := ⟨rfl, rfl, rfl⟩
theorem EncodeShape.prn (a : Byte) : EncodeShape.Statement (.prn a) := ⟨rfl, rfl, rfl⟩
theorem EncodeShape.push (a : Byte) : EncodeShape.Statement (.push a) := ⟨rfl, rfl, rfl⟩
theorem EncodeShape.pop (a : Byte) : EncodeShape.Statement (.pop a) := ⟨rfl, rfl, rfl⟩
theorem EncodeShape.call (a : Byte) : EncodeShape.Statement (.call a) := ⟨rfl, rfl, rfl⟩
theorem EncodeShape.ret : EncodeShape.Statement .ret := ⟨rfl, rfl, rfl⟩
theorem EncodeShape.halt : EncodeShape.Statement .halt := ⟨rfl, rfl, rfl⟩

end Sys2Proof.Laws
end

