-- ==== Sys2Proof/Tests/Slice0.lean ====
section
/-! SUPPORT. The model's own tests: words written out bit by bit from spec/opcode_table.json, the smoke test of the
well-formedness checks, single steps whose expected results are rows of spec/95_test_vectors.md (named in each
comment), and the witnesses that the hypotheses of the obligations can be met. -/

namespace Sys2Proof.Tests

open Sys2Proof.Machine

/-- The reset state with PC at an address and bytes stored there. -/
def machineAt (pc : Byte) (bytes : List Byte) : State :=
  { State.reset with pc := pc, mem := Memory.writeAll [] pc.toNat bytes }

/-- One cell set. -/
def poke (s : State) (addr : Nat) (v : Byte) : State := { s with mem := s.mem.write addr v }

/-! ### Decoding: each row's bit string from the opcode table -/

theorem test_decode_ldi : decode [0b10000010, 0b00000011, 0b11111111] = .ok (.ldi 3 255, []) := by decide
theorem test_decode_add : decode [0b10100000, 0b00000000, 0b00000001] = .ok (.add 0 1, []) := by decide
theorem test_decode_mul : decode [0b10100010, 0b00000101, 0b00000110] = .ok (.mul 5 6, []) := by decide
theorem test_decode_prn : decode [0b01000111, 0b00000110] = .ok (.prn 6, []) := by decide
theorem test_decode_push : decode [0b01000101, 0b00000001] = .ok (.push 1, []) := by decide
theorem test_decode_pop : decode [0b01000110, 0b00000010] = .ok (.pop 2, []) := by decide
theorem test_decode_call : decode [0b01010000, 0b00000111] = .ok (.call 7, []) := by decide
theorem test_decode_ret : decode [0b00010001, 0b01000111] = .ok (.ret, [0x47]) := by decide
theorem test_decode_halt : decode [0b00000001] = .ok (.halt, []) := by decide

/-- Rows I1 to I8: bytes next to opcodes are illegal. -/
theorem test_decode_illegal :
    ∀ op ∈ ([0x00, 0xFF, 0x02, 0x83, 0xA1, 0x48, 0x10, 0x51] : List Byte),
      decode [op, 9, 9] = .error (.illegalOpcode op) := by decide

theorem test_decode_missing_operand : decode [0x82, 0x01] = .error .missingOperand := by decide
theorem test_decode_no_opcode : decode [] = .error .noOpcode := by decide

/-- The first instruction of program P1, `82 00 08`, as the table numbers its bits. -/
theorem test_decodeTableWord_ldi : decodeTableWord 24 0x080082 = some (.ldi 0 8) := by decide
/-- Bits from nbits on count as zero. -/
theorem test_decodeTableWord_short : decodeTableWord 8 0xFF47 = some (.prn 0) := by decide

theorem test_withFetchWord_steps : (State.reset.withFetchWord 24 0x080082).afterStep.readReg 0 = 8 := by decide

/-- R54's own examples. -/
theorem test_spelling : (Instr.ldi 0 8).spelling = "LDI R0, 8" ∧ (Instr.add 0 1).spelling = "ADD R0, R1" := by decide

/-! ### Well-formedness: an ill-formed term for each check -/

theorem test_ldi_a_refused : (Instr.ldi 8 0).wellFormed = false := by decide
theorem test_add_a_refused : (Instr.add 8 0).wellFormed = false := by decide
theorem test_add_b_refused : (Instr.add 0 255).wellFormed = false := by decide
theorem test_mul_a_refused : (Instr.mul 200 0).wellFormed = false := by decide
theorem test_mul_b_refused : (Instr.mul 0 8).wellFormed = false := by decide
theorem test_prn_refused : (Instr.prn 8).wellFormed = false := by decide
theorem test_push_refused : (Instr.push 8).wellFormed = false := by decide
theorem test_pop_refused : (Instr.pop 9).wellFormed = false := by decide
theorem test_call_refused : (Instr.call 8).wellFormed = false := by decide
theorem test_boundaries_accepted : (Instr.ldi 7 255).wellFormed = true ∧ (Instr.mul 7 7).wellFormed = true := by decide

/-! ### Single steps -/

/-- Row LD5: the last address an LDI can stand at. -/
theorem test_ldi_top : let t := (machineAt 252 [0x82, 1, 7]).afterStep
    t.readReg 1 = 7 ∧ t.pc = 255 ∧ t.st = .running := by decide
/-- Row LD6: the successor would be 256. -/
theorem test_ldi_successor : let t := (machineAt 253 [0x82, 1, 7]).afterStep
    t.readReg 1 = 0 ∧ t.pc = 253 ∧ t.faultRec = some ⟨.outOfRangeAccess, some 253, some 0x82⟩ := by decide

/-- Row A1: 250 + 10 wraps. -/
theorem test_add_wraps : let t := (((machineAt 0x20 [0xA0, 0, 1]).writeReg 0 250).writeReg 1 10).afterStep
    t.readReg 0 = 4 ∧ t.readReg 1 = 10 ∧ t.pc = 0x23 := by decide
/-- Row A9: operand 7 reads SP. -/
theorem test_add_reads_sp : let t := ((machineAt 0x20 [0xA0, 0, 7]).writeReg 0 0x10).afterStep
    t.readReg 0 = 4 ∧ t.sp = 0xF4 := by decide

/-- Row M4: 255 * 255. -/
theorem test_mul_wraps : let t := (((machineAt 0x20 [0xA2, 0, 1]).writeReg 0 255).writeReg 1 255).afterStep
    t.readReg 0 = 1 ∧ t.readReg 1 = 255 ∧ t.pc = 0x23 := by decide
/-- Row M5 and row M9, column alu_ovf. -/
theorem test_mul_ovf :
    aluOvfOf (.mul 0 1) (((machineAt 0x20 []).writeReg 0 15).writeReg 1 17) = some false ∧
    aluOvfOf (.mul 5 5) ((machineAt 0x20 []).writeReg 5 16) = some true := by decide

/-- Row N3: operand 7 emits SP, after what was there. -/
theorem test_prn_sp : let t := { machineAt 0x30 [0x47, 7] with out := [1] }.afterStep
    t.out = [1, 244] ∧ t.pc = 0x32 := by decide
/-- Row N6: nothing is emitted. -/
theorem test_prn_successor : let t := ((machineAt 254 [0x47, 0]).writeReg 0 9).afterStep
    t.out = [] ∧ t.st = .faulted .outOfRangeAccess ∧ t.pc = 254 := by decide

/-- Row U4: PUSH 7 pushes the decremented SP. -/
theorem test_push_sp : let t := (machineAt 0x40 [0x45, 7]).afterStep
    t.sp = 0xF3 ∧ t.mem.read 0xF3 = 0xF3 ∧ t.pc = 0x42 := by decide
/-- Row U7: the stack bound is checked before the successor address. -/
theorem test_push_order : let t := ((machineAt 254 [0x45, 0]).writeReg 7 0).afterStep
    t.faultRec = some ⟨.stackUnderflow, some 254, some 0x45⟩ ∧ t.sp = 0 ∧ t.mem.read 255 = 0 := by decide

/-- Row O6: POP 7 increments the popped value. -/
theorem test_pop_sp : let t := (poke ((machineAt 0x50 [0x46, 7]).writeReg 7 0xF3) 0xF3 0x20).afterStep
    t.sp = 0x21 ∧ t.pc = 0x52 := by decide
/-- Row O3: POP on the empty stack. -/
theorem test_pop_empty : let t := (poke (machineAt 0x50 [0x46, 2]) 0xF4 0x42).afterStep
    t.faultRec = some ⟨.stackOverflow, some 0x50, some 0x46⟩ ∧ t.readReg 2 = 0 ∧ t.sp = 0xF4 := by decide

/-- Row C8: CALL 7 jumps to the decremented SP. -/
theorem test_call_sp : let t := (machineAt 0x60 [0x50, 7]).afterStep
    t.sp = 0xF3 ∧ t.mem.read 0xF3 = 0x62 ∧ t.pc = 0xF3 := by decide
/-- Row C6: a return address of 256. -/
theorem test_call_return_address : let t := ((machineAt 254 [0x50, 1]).writeReg 1 0x10).afterStep
    t.faultRec = some ⟨.outOfRangeAccess, some 254, some 0x50⟩ ∧ t.sp = 0xF4 ∧ t.mem.read 0xF3 = 0 := by decide

/-- Row T3: RET may stand at 255. -/
theorem test_ret_top : let t := (poke ((machineAt 255 [0x11]).writeReg 7 0xF0) 0xF0 0xFF).afterStep
    t.pc = 255 ∧ t.sp = 0xF1 := by decide
/-- Row T2: RET on the empty stack. -/
theorem test_ret_empty : let t := (poke (machineAt 17 [0x11]) 0xF4 11).afterStep
    t.faultRec = some ⟨.stackOverflow, some 17, some 0x11⟩ ∧ t.pc = 17 := by decide

/-- Row H2: HALT at 255. -/
theorem test_halt_top : let t := (machineAt 255 [0x01]).afterStep
    t.st = .halted ∧ t.pc = 255 ∧ t.faultRec = none ∧ t.running = false := by decide

/-- Row I1 at address 0: a step of the reset state. -/
theorem test_reset_step : State.reset.afterStep.faultRec = some ⟨.illegalInstruction, some 0, some 0⟩ := by decide
/-- Row LD7: the second operand would be fetched at 256. -/
theorem test_operand_fetch : (machineAt 254 [0x82, 1]).afterStep.faultRec =
    some ⟨.outOfRangeAccess, some 254, some 0x82⟩ := by decide

/-! ### The host's operations -/

/-- Row L3: 257 bytes. -/
theorem test_load_tooLarge : let r := State.reset.load (List.replicate 257 0x01)
    r.1 = .failed .programTooLarge ∧ r.2.mem = [] ∧ r.2.faultRec = some ⟨.programTooLarge, none, none⟩ := by
  intro r
  have h : r = _ := State.load_tooLarge (by rw [List.length_replicate]; decide)
  rw [h]
  exact ⟨rfl, rfl, rfl⟩
/-- Row L5: a later load leaves the remainder. -/
theorem test_load_remainder : ((State.reset.load [0x82, 0, 8]).2.load [0x01]).2.mem = [(0, 0x01), (2, 8)] := by decide
/-- Rows X2 and X3. -/
theorem test_hostRead_outside :
    (State.reset.hostRead 256).1 = .failed .outOfRangeAccess ∧ (State.reset.hostRead (-1)).1 = .failed .outOfRangeAccess := by
  decide

/-! ### Witnesses: the hypotheses of each obligation that has some can be met, clause by clause at a boundary -/

/-- A running machine at address 0 whose next instruction is `LDI R0, 8`, which is the state of most witnesses. -/
def running : State := machineAt 0 [0x82, 0, 8]

/-- A machine that has halted. -/
def halted : State := { machineAt 11 [0x01] with st := .halted }

/-- A machine whose next byte, 0xFF, is no opcode. -/
def illegal : State := machineAt 3 [0xFF]

/-- A step that changes something has answered a next state. -/
theorem step_next_of_moves {s : State} (h : s.afterStep ≠ s) : step s = .next s.afterStep := by
  unfold State.afterStep at h ⊢
  split <;> simp_all

theorem running_inv : running.Inv := ⟨by decide, rfl⟩

theorem witness_StepKeepsInvariant : running.Inv ∧ step running = .next running.afterStep ∧ running.afterStep.readReg 0 = 8 :=
  ⟨running_inv, step_next_of_moves (by decide), by decide⟩
theorem witness_StepKeepsInvariant_fault : illegal.Inv ∧ step illegal = .next illegal.afterStep ∧
    illegal.afterStep.st = .faulted .illegalInstruction :=
  ⟨⟨by decide, rfl⟩, step_next_of_moves (by decide), by decide⟩
theorem witness_HostOperationKeepsInvariant : running.Inv ∧ (HostOp.step.perform running).2.readReg 0 = 8 :=
  ⟨running_inv, by decide⟩

theorem witness_ReachableStatesMeetInvariant :
    ∃ s, Reachable s ∧ s.st = .faulted .stackOverflow := by
  refine ⟨_, .perform .step (.perform (.load [0x46, 0]) .reset), ?_⟩
  decide
theorem witness_ReachableStatesMeetInvariant_underflow :
    ∃ s, Reachable s ∧ s.st = .faulted .stackUnderflow := by
  refine ⟨_, .perform (.run 2) (.perform (.load [0x82, 7, 0, 0x45, 0]) .reset), ?_⟩
  decide

theorem witness_CanonicalMemories :
    Memory.wf [(0, 1), (255, 2)] ∧ ∀ addr, Memory.read [(0, 1), (255, 2)] addr = (Memory.write [(255, 2)] 0 1).read addr :=
  ⟨by decide, fun _ => rfl⟩

theorem witness_DecodeAndEncodeAgree :
    decode [0x45, 0xFF, 0x01] = .ok (.push 0xFF, [0x01]) ∧ [0x45, 0xFF, 0x01] = (Instr.push 0xFF).encode ++ [0x01] := by
  decide

theorem witness_RegisterOperand :
    (7 : Byte).toNat < 8 ∧ 7 < (8 : Byte).toNat ∧ ∃ v ∈ (Instr.mul 7 8).regOperands, 7 < v.toNat := by decide

theorem witness_StepRuns :
    running.st = .running ∧ decode running.bytesAtPc = .ok (.ldi 0 8, []) ∧
    illegal.st = .running ∧ decode illegal.bytesAtPc = .error (.illegalOpcode 0xFF) ∧
    (machineAt 254 [0x82, 0]).st = .running ∧ decode (machineAt 254 [0x82, 0]).bytesAtPc = .error .missingOperand := by
  decide

theorem witness_PlacedTableWord :
    (machineAt 253 []).st = .running ∧ (machineAt 253 []).pc.toNat ≤ 253 ∧ decodeTableWord 16 0x0745 = some (.push 7) := by
  decide

theorem witness_StepOutsideRunning : halted.st ≠ .running ∧ illegal.afterStep.st ≠ .running := by decide

theorem witness_FirstFailing :
    running.st = .running ∧ firstFailing (stepChecks running) = none ∧
    illegal.st = .running ∧ firstFailing (stepChecks illegal) = some .illegalInstruction := by decide

theorem witness_FaultingStep :
    illegal.st = .running ∧ step illegal = .next illegal.afterStep ∧ illegal.afterStep.st = .faulted .illegalInstruction :=
  ⟨rfl, step_next_of_moves (by decide), by decide⟩

theorem witness_IllegalOpcode : illegal.st = .running ∧
    illegal.mem.read illegal.pc.toNat ∉ ([0x82, 0xA0, 0xA2, 0x47, 0x45, 0x46, 0x50, 0x11, 0x01] : List Byte) := by decide

theorem witness_ProgramCounter :
    running.st = .running ∧ decode running.bytesAtPc = .ok (.ldi 0 8, []) ∧
    (machineAt 255 [0x11]).st = .running ∧ decode (machineAt 255 [0x11]).bytesAtPc = .ok (.ret, []) := by decide

/-! The result statements: completion, register operand, successor, operand fetch. -/

theorem witness_Ldi : (7 : Byte).toNat < 8 ∧ (machineAt 252 []).pc.toNat + 3 ≤ 255 := by decide
theorem witness_Ldi_register : 7 < (8 : Byte).toNat := by decide
theorem witness_Ldi_successor : (0 : Byte).toNat < 8 ∧ 255 < (machineAt 253 []).pc.toNat + 3 := by decide
theorem witness_Ldi_fetch : let s := machineAt 254 [0x82, 1]
    s.st = .running ∧ s.mem.read s.pc.toNat = 0x82 ∧ 255 < s.pc.toNat + 2 := by decide

theorem witness_Add : (7 : Byte).toNat < 8 ∧ (0 : Byte).toNat < 8 ∧ (machineAt 252 []).pc.toNat + 3 ≤ 255 := by decide
theorem witness_Add_register : (7 < (8 : Byte).toNat ∨ 7 < (0 : Byte).toNat) ∧ (7 < (0 : Byte).toNat ∨ 7 < (8 : Byte).toNat) := by
  decide
theorem witness_Add_successor : (7 : Byte).toNat < 8 ∧ (7 : Byte).toNat < 8 ∧ 255 < (machineAt 253 []).pc.toNat + 3 := by decide
theorem witness_Add_fetch : let s := machineAt 255 [0xA0]
    s.st = .running ∧ s.mem.read s.pc.toNat = 0xA0 ∧ 255 < s.pc.toNat + 2 := by decide

theorem witness_Mul : (0 : Byte).toNat < 8 ∧ (7 : Byte).toNat < 8 ∧ (machineAt 252 []).pc.toNat + 3 ≤ 255 := by decide
theorem witness_Mul_register : 7 < (255 : Byte).toNat ∨ 7 < (255 : Byte).toNat := by decide
theorem witness_Mul_successor : (0 : Byte).toNat < 8 ∧ (7 : Byte).toNat < 8 ∧ 255 < (machineAt 253 []).pc.toNat + 3 := by decide
theorem witness_Mul_fetch : let s := machineAt 254 [0xA2, 0]
    s.st = .running ∧ s.mem.read s.pc.toNat = 0xA2 ∧ 255 < s.pc.toNat + 2 := by decide

theorem witness_Prn : (7 : Byte).toNat < 8 ∧ (machineAt 253 []).pc.toNat + 2 ≤ 255 := by decide
theorem witness_Prn_register : 7 < (8 : Byte).toNat := by decide
theorem witness_Prn_successor : (7 : Byte).toNat < 8 ∧ 255 < (machineAt 254 []).pc.toNat + 2 := by decide
theorem witness_Prn_fetch : let s := machineAt 255 [0x47]
    s.st = .running ∧ s.mem.read s.pc.toNat = 0x47 ∧ s.pc = 255 := by decide

theorem witness_Push : let s := (machineAt 253 []).writeReg 7 1
    (7 : Byte).toNat < 8 ∧ s.sp ≠ 0 ∧ s.pc.toNat + 2 ≤ 255 := by decide
theorem witness_Push_register : 7 < (8 : Byte).toNat := by decide
theorem witness_Push_underflow : (7 : Byte).toNat < 8 ∧ ((machineAt 254 []).writeReg 7 0).sp = 0 := by decide
theorem witness_Push_successor : let s := (machineAt 254 []).writeReg 7 1
    (0 : Byte).toNat < 8 ∧ s.sp ≠ 0 ∧ 255 < s.pc.toNat + 2 := by decide
theorem witness_Push_fetch : let s := machineAt 255 [0x45]
    s.st = .running ∧ s.mem.read s.pc.toNat = 0x45 ∧ s.pc = 255 := by decide

/-- POP 7 with 0xF3 popped, the greatest value that may be incremented. -/
theorem witness_Pop : let s := poke (machineAt 253 []) 0xF4 0xF3
    (0xF3 : Byte) = s.mem.read s.sp.toNat ∧ (0xF3 : Byte) = (if (7 : Byte) = 7 then 0xF3 else s.sp) ∧
    (7 : Byte).toNat < 8 ∧ (0xF3 : Byte).toNat + 1 ≤ 0xF4 ∧ s.pc.toNat + 2 ≤ 255 := by decide
theorem witness_Pop_register : let s := machineAt 0 []
    (0 : Byte) = s.mem.read s.sp.toNat ∧ (0xF4 : Byte) = (if (8 : Byte) = 7 then 0 else s.sp) ∧ 7 < (8 : Byte).toNat := by decide
theorem witness_Pop_overflow : let s := machineAt 0 []
    (0 : Byte) = s.mem.read s.sp.toNat ∧ (0xF4 : Byte) = (if (6 : Byte) = 7 then 0 else s.sp) ∧
    (6 : Byte).toNat < 8 ∧ 0xF4 < (0xF4 : Byte).toNat + 1 := by decide
theorem witness_Pop_successor : let s := (machineAt 254 []).writeReg 7 0xF3
    (0 : Byte) = s.mem.read s.sp.toNat ∧ (0xF3 : Byte) = (if (0 : Byte) = 7 then 0 else s.sp) ∧
    (0 : Byte).toNat < 8 ∧ (0xF3 : Byte).toNat + 1 ≤ 0xF4 ∧ 255 < s.pc.toNat + 2 := by decide
theorem witness_Pop_fetch : let s := machineAt 255 [0x46]
    s.st = .running ∧ s.mem.read s.pc.toNat = 0x46 ∧ s.pc = 255 := by decide

theorem witness_Call : let s := (machineAt 253 []).writeReg 7 1
    (7 : Byte).toNat < 8 ∧ s.sp ≠ 0 ∧ s.pc.toNat + 2 ≤ 255 := by decide
theorem witness_Call_register : 7 < (8 : Byte).toNat := by decide
theorem witness_Call_underflow : (0 : Byte).toNat < 8 ∧ ((machineAt 254 []).writeReg 7 0).sp = 0 := by decide
theorem witness_Call_successor : let s := (machineAt 254 []).writeReg 7 0xFF
    (7 : Byte).toNat < 8 ∧ s.sp ≠ 0 ∧ 255 < s.pc.toNat + 2 := by decide
theorem witness_Call_fetch : let s := machineAt 255 [0x50]
    s.st = .running ∧ s.mem.read s.pc.toNat = 0x50 ∧ s.pc = 255 := by decide

theorem witness_Ret : ((machineAt 255 []).writeReg 7 0xF3).sp.toNat + 1 ≤ 0xF4 := by decide
theorem witness_Ret_overflow : 0xF4 < (machineAt 255 []).sp.toNat + 1 := by decide

theorem witness_Halt : let s := machineAt 255 [0x01]
    s.st = .running ∧ s.mem.read s.pc.toNat = 0x01 := by decide
theorem witness_Halt_stopped : halted.st = .halted := by decide

theorem witness_RegisterInstructionsFrame : Instr.mul 1 2 ∈ [Instr.ldi 1 2, Instr.add 1 2, Instr.mul 1 2] ∧
    (0 : Fin 8).val ≠ (1 : Byte).toNat := by decide
theorem witness_StoringInstructionsFrame : Instr.call 1 ∈ [Instr.push 1, Instr.call 1] ∧
    running.stackDec.toOption.isSome ∧ (running.writeReg 7 0).stackDec = .error .stackUnderflow := ⟨by decide, by decide, rfl⟩
theorem witness_LoadingInstructionsFrame : (0 : Fin 8) ≠ 7 ∧ (0 : Fin 8).val ≠ (1 : Byte).toNat := by decide
theorem witness_StepWrites : let s := machineAt 0 [0x45, 0]
    ¬ (s.mem.read s.pc.toNat ∈ ([0x45, 0x50] : List Byte) ∧ s.sp ≠ 0 ∧ 0xF4 = s.sp.toNat - 1) ∧
    ¬ (running.mem.read running.pc.toNat ∈ ([0x45, 0x50] : List Byte) ∧ running.sp ≠ 0 ∧ 0xF3 = running.sp.toNat - 1) := by
  decide
theorem witness_FaultKinds : halted.st ≠ .running ∧ running.st = .running ∧
    ∃ t, exec (.pop 0) running = .next t ∧ t.st = .faulted .stackOverflow := ⟨by decide, rfl, _, rfl, rfl⟩
theorem witness_UnnamedRegisters : (6 : Fin 8).val ∉ (Instr.push 0).regsUsed ∧ (7 : Fin 8).val ∉ (Instr.add 0 1).regsUsed := by
  decide
theorem witness_OutputNotRead : let u := { running with out := [1], faultRec := some ⟨.programTooLarge, none, none⟩ }
    running.mem = u.mem ∧ running.regs = u.regs ∧ running.pc = u.pc ∧ running.st = u.st ∧ running ≠ u := by decide

theorem witness_MemRead : ((256 : Int) < 0 ∨ 255 < (256 : Int)) ∧ ((-1 : Int) < 0 ∨ 255 < (-1 : Int)) ∧
    0 ≤ (255 : Int) ∧ (255 : Int) ≤ 255 := by decide
theorem witness_MemWrite : 0 ≤ (255 : Int) ∧ (255 : Int) ≤ 255 ∧ (254 : Int) ≠ 255 ∧ running.mem.wf := by decide
theorem witness_StackPointerChecks :
    (running.writeReg 7 0).sp = 0 ∧ (running.writeReg 7 1).sp ≠ 0 ∧
    0xF4 < (running.writeReg 7 0xF4).sp.toNat + 1 ∧ (running.writeReg 7 0xF3).sp.toNat + 1 ≤ 0xF4 := by decide
theorem witness_AluResult : exactProduct 255 255 ∈ [exactSum 255 255, exactProduct 255 255] := by decide

theorem witness_PushThenPop : let s := (machineAt 253 []).writeReg 7 1
    1 ≤ s.sp.toNat ∧ s.sp.toNat ≤ 0xF4 ∧ s.pc.toNat ≤ 253 ∧
    ∃ t, exec (.push (BitVec.ofNat 8 (0 : Fin 8).val)) s = .next t ∧
      ∃ u : State, u.sp = t.sp ∧ u.mem.read t.sp.toNat = t.mem.read t.sp.toNat ∧ u.pc.toNat ≤ 253 ∧ (1 : Fin 8) ≠ 7 :=
  ⟨by decide, by decide, by decide, _, rfl, { (machineAt 253 []).writeReg 7 0 with pc := 3 }, by decide⟩
/-- A trace of states at one address whose SP goes down from its top, one a state. -/
def descending (k : Nat) : State := (machineAt 0 [0x45, 0]).writeReg 7 (BitVec.ofNat 8 (244 - k))

theorem witness_StackHolds : (0 : Byte).toNat < 8 ∧ (descending 0).sp = State.reset.sp ∧
    (∀ k, (descending k).pc.toNat ≤ 253) ∧
    ∀ k < 244, ∃ t, exec (.push 0) (descending k) = .next t ∧ (descending (k + 1)).sp = t.sp := by
  refine ⟨by decide, by decide, fun _ => Nat.zero_le 253, fun k hk => ?_⟩
  have sp (j : Nat) : (descending j).sp = BitVec.ofNat 8 (244 - j) := State.sp_writeReg _ _ _
  have moves : (descending k).sp ≠ 0 := by
    rw [sp]; intro h; have := congrArg BitVec.toNat h; simp at this; omega
  have pc : (descending k).pc.toNat + 1 + 1 ≤ 255 := by rw [show (descending k).pc = 0 from rfl]; decide
  refine ⟨_, by simp only [exec, execPush, regIndex_ok (show (0 : Byte).toNat < 8 by decide), State.stackDec_ok moves,
    successor_ok pc, State.memWrite_byte]; rfl, ?_⟩
  simp only [State.sp_setPc]
  rw [sp]
  show _ = ((descending k).setSp _).sp
  rw [State.sp_setSp, sp]
  apply BitVec.eq_of_toNat_eq
  simp
  omega

theorem witness_CallThenRet : let s := machineAt 253 []
    1 ≤ s.sp.toNat ∧ s.sp.toNat ≤ 0xF4 ∧ s.pc.toNat ≤ 253 ∧ (0 : Fin 8) ≠ 7 ∧
    ∃ t, exec (.call (BitVec.ofNat 8 (7 : Fin 8).val)) s = .next t ∧
      ∃ u : State, u.sp = t.sp ∧ u.mem.read t.sp.toNat = t.mem.read t.sp.toNat :=
  ⟨by decide, by decide, by decide, by decide, _, rfl, _, rfl, rfl⟩
theorem witness_ImplicitUpdates : running.sp.toNat ≤ 0xF4 ∧ (Instr.push 7).destination ≠ some 7 := by decide

theorem witness_StoresSeen_host : let u := machineAt 255 [0x01]
    u.st = .running ∧ u.mem.read (255 : Byte).toNat = (running.hostWrite (255 : Byte).toNat 0x01).2.mem.read (255 : Byte).toNat ∧
    decode (bytesFrom (fun x => if x = (255 : Byte).toNat then 0x01 else u.mem.read x) u.pc) = .ok (.halt, []) := by decide
/-- The host's byte is the operand of an instruction whose opcode stood there before. -/
theorem witness_StoresSeen_operand : let u := poke (machineAt 1 [0x47, 0]) 2 7
    u.st = .running ∧ u.mem.read (2 : Byte).toNat = (running.hostWrite (2 : Byte).toNat 7).2.mem.read (2 : Byte).toNat ∧
    decode (bytesFrom (fun x => if x = (2 : Byte).toNat then 7 else u.mem.read x) u.pc) = .ok (.prn 7, [0]) := by decide
theorem witness_StoresSeen_load : running.st = .running ∧ ([0x82, 0, 8] : List Byte).length ≤ 256 ∧
    ∀ x < ([0x82, 0, 8] : List Byte).length, running.mem.read x = (illegal.load [0x82, 0, 8]).2.mem.read x := by decide
/-- PUSH stores the opcode of HALT and CALL an address that is no opcode, both at the least address, and a later state
stands there. -/
theorem witness_StoresSeen_push : let s := ((machineAt 0xFD [0x45, 0]).writeReg 7 1).writeReg 0 0x01
    let u := machineAt 0 [0x01]
    (0 : Byte).toNat < 8 ∧ s.sp ≠ 0 ∧ s.pc.toNat + 2 ≤ 255 ∧ u.st = .running ∧
    ∃ t, exec (.push 0) s = .next t ∧ u.mem.read t.sp.toNat = t.mem.read t.sp.toNat :=
  ⟨by decide, by decide, by decide, rfl, _, rfl, rfl⟩
theorem witness_StoresSeen_call : let s := (machineAt 0xFD [0x50, 0]).writeReg 7 1
    let u := machineAt 0 [0xFF]
    (0 : Byte).toNat < 8 ∧ s.sp ≠ 0 ∧ s.pc.toNat + 2 ≤ 255 ∧ u.st = .running ∧
    ∃ t, exec (.call 0) s = .next t ∧ u.mem.read t.sp.toNat = t.mem.read t.sp.toNat :=
  ⟨by decide, by decide, by decide, rfl, _, rfl, rfl⟩

theorem witness_RunIsRepeatedStep : ((machineAt 0 [0x01]).run 1).st ≠ .running ∧ 1 ≤ 5 ∧ halted.st ≠ .running := by decide
theorem witness_SafeRun : (∀ kind, running.st ≠ .faulted kind) ∧ (running.run 0).st = .running :=
  ⟨fun _ h => RunState.noConfusion h, rfl⟩
theorem witness_RunStateTransitions :
    running.st = .running ∧ halted.st ≠ .running ∧ 256 < (List.replicate 257 (1 : Byte)).length ∧
    (List.replicate 256 (1 : Byte)).length ≤ 256 := by
  rw [List.length_replicate, List.length_replicate]; decide
theorem witness_StoppedMachine : illegal.afterStep.st ≠ .running ∧ HostOp.reset ∉ [.step, .load [1], .hostWrite 0 1] := by decide
theorem witness_Load : (List.replicate 256 (1 : Byte)).length ≤ 256 ∧ 256 < (List.replicate 257 (1 : Byte)).length ∧
    running.st = .running ∧ halted.st ≠ .running := by
  rw [List.length_replicate, List.length_replicate]; decide
theorem witness_LaterLoad : ([0x82, 0, 8] : List Byte).length ≤ 256 ∧ ([0x01] : List Byte).length ≤ 256 ∧
    2 < ([0x82, 0, 8] : List Byte).length ∧ ([0x01] : List Byte).length ≤ 2 := by decide
theorem witness_HostCannotReach : HostOp.hostWrite 0 1 ≠ .reset ∧ HostOp.hostWrite 0 1 ≠ .step ∧
    ∀ budget, HostOp.hostWrite 0 1 ≠ .run budget := ⟨by decide, by decide, fun _ h => nomatch h⟩
theorem witness_Boot : ([0x82, 0, 8, 0x01] : List Byte).length ≤ 256 ∧
    decode [0x82, 0, 8, 0x01] = .ok (.ldi 0 8, [0x01]) := by decide

end Sys2Proof.Tests
end

section
/-! PROOFS. What `Load`, `HostRead` and `HostWrite` answer and leave (R40 to R43 of 20_memory.md), and O53, O54 and
O55. -/

namespace Sys2Proof.Machine

/-! ### Reading a loaded image -/

/-- Below its length an image written from address 0 reads as its own bytes. -/
theorem Memory.read_image (m : Memory) {image : List Byte} {x : Nat} (h : x < image.length) :
    (m.writeAll 0 image).read x = image[x] := by
  rw [Memory.read_writeAll, dif_pos ⟨x.zero_le, h⟩]
  rfl

/-- From its length on an image written from address 0 leaves every cell. -/
theorem Memory.read_beyond_image (m : Memory) {image : List Byte} {x : Nat} (h : image.length ≤ x) :
    (m.writeAll 0 image).read x = m.read x := by
  rw [Memory.read_writeAll, dif_neg (by omega)]

/-! ### An image that does not fit -/

theorem State.load_tooLarge_running {s : State} {bytes : List Byte} (h : 256 < bytes.length) (hs : s.st = .running) :
    s.load bytes = (.failed .programTooLarge,
      { s with st := .faulted .programTooLarge, faultRec := some ⟨.programTooLarge, none, none⟩ }) := by
  rw [State.load_tooLarge h, if_pos ((State.running_iff s).mpr hs)]

theorem State.load_tooLarge_stopped {s : State} {bytes : List Byte} (h : 256 < bytes.length) (hs : s.st ≠ .running) :
    s.load bytes = (.failed .programTooLarge, s) := by
  rw [State.load_tooLarge h, if_neg (mt (State.running_iff s).mp hs)]

/-! ### The checked primitives at any integer address -/

theorem State.memRead_inRange (s : State) {addr : Int} (h0 : 0 ≤ addr) (h1 : addr ≤ 255) :
    s.memRead addr = .ok (s.mem.read addr.toNat) := if_pos ((addrInRange_iff addr).mpr (by omega))

theorem State.memRead_outside (s : State) {addr : Int} (h : addr < 0 ∨ 255 < addr) :
    s.memRead addr = .error .outOfRangeAccess := if_neg (by rw [addrInRange_iff]; omega)

theorem State.memWrite_inRange (s : State) {addr : Int} (v : Byte) (h0 : 0 ≤ addr) (h1 : addr ≤ 255) :
    s.memWrite addr v = .ok { s with mem := s.mem.write addr.toNat v } := if_pos ((addrInRange_iff addr).mpr (by omega))

theorem State.memWrite_outside (s : State) {addr : Int} (v : Byte) (h : addr < 0 ∨ 255 < addr) :
    s.memWrite addr v = .error .outOfRangeAccess := if_neg (by rw [addrInRange_iff]; omega)

/-! ### The host's accessors -/

theorem State.hostRead_inRange (s : State) {addr : Int} (h0 : 0 ≤ addr) (h1 : addr ≤ 255) :
    s.hostRead addr = (.byte (s.mem.read addr.toNat), s) := by
  rw [State.hostRead, s.memRead_inRange h0 h1]

theorem State.hostRead_outside (s : State) {addr : Int} (h : addr < 0 ∨ 255 < addr) :
    s.hostRead addr = (.failed .outOfRangeAccess, s) := by
  rw [State.hostRead, s.memRead_outside h]

theorem State.hostWrite_inRange (s : State) {addr : Int} (v : Byte) (h0 : 0 ≤ addr) (h1 : addr ≤ 255) :
    s.hostWrite addr v = (.ok, { s with mem := s.mem.write addr.toNat v }) := by
  rw [State.hostWrite, s.memWrite_inRange v h0 h1]

theorem State.hostWrite_outside (s : State) {addr : Int} (v : Byte) (h : addr < 0 ∨ 255 < addr) :
    s.hostWrite addr v = (.failed .outOfRangeAccess, s) := by
  rw [State.hostWrite, s.memWrite_outside v h]

/-- Once a cell is written, the host reads the value from it. -/
theorem State.hostRead_written (s : State) {addr : Int} (v : Byte) (h0 : 0 ≤ addr) (h1 : addr ≤ 255) :
    State.hostRead { s with mem := s.mem.write addr.toNat v } addr =
      (.byte v, { s with mem := s.mem.write addr.toNat v }) := by
  rw [State.hostRead_inRange _ h0 h1, Memory.read_write_same]

/-- Once a cell is written, the host is answered at every other address, in range or not, as before. -/
theorem State.hostRead_unwritten (s : State) {addr x : Int} (v : Byte) (h0 : 0 ≤ addr) (hx : x ≠ addr) :
    (State.hostRead { s with mem := s.mem.write addr.toNat v } x).1 = (s.hostRead x).1 := by
  by_cases hin : 0 ≤ x ∧ x ≤ 255
  · have hcell : x.toNat ≠ addr.toNat := by omega
    rw [State.hostRead_inRange _ hin.1 hin.2, State.hostRead_inRange _ hin.1 hin.2, Memory.read_write_other _ v hcell]
  · have hout : x < 0 ∨ 255 < x := by omega
    rw [State.hostRead_outside _ hout, State.hostRead_outside _ hout]

/-! ### The obligations -/

/-- Settles O53: the length decides first, and the run state only for an image that does not fit. -/
theorem loadCopiesTheImage : Obligations.LoadCopiesTheImage := by
  intro s bytes
  refine ⟨fun fits => ?_, fun large hs => ?_, State.load_tooLarge_stopped⟩
  · exact ⟨_, State.load_fits fits, fun _ h => s.mem.read_image h, fun _ h => s.mem.read_beyond_image h,
      rfl, rfl, rfl, rfl, rfl⟩
  · exact ⟨_, State.load_tooLarge_running large hs, rfl, rfl, rfl, rfl, rfl, rfl, rfl⟩

/-- Settles O54: a cell beyond the second image reads as the first load left it. -/
theorem laterLoadLeavesTheRemainder : Obligations.LaterLoadLeavesTheRemainder := by
  intro s first second hfirst hsecond
  rw [State.load_fits hfirst]
  refine ⟨_, State.load_fits hsecond, fun i hi => ?_, fun i hi hbeyond => ?_, fun addr h1 h2 => ?_,
    rfl, rfl, rfl, rfl, rfl⟩
  · exact Memory.read_image _ hi
  · exact (Memory.read_beyond_image _ hbeyond).trans (Memory.read_image _ hi)
  · exact (Memory.read_beyond_image _ h2).trans (Memory.read_beyond_image _ h1)

/-- Settles O55: the address alone decides what the accessors answer, never the run state. -/
theorem hostAccessorsInEveryRunState : Obligations.HostAccessorsInEveryRunState := by
  intro s addr v
  refine ⟨fun outside => ?_, fun h0 h1 => ?_⟩
  · exact ⟨s.hostRead_outside outside, s.hostWrite_outside v outside⟩
  · exact ⟨s.hostRead_inRange h0 h1, _, s.hostWrite_inRange v h0 h1, s.hostRead_written v h0 h1,
      fun _ hx => s.hostRead_unwritten v h0 hx, rfl, rfl, rfl, rfl, rfl⟩

end Sys2Proof.Machine
end

section
/-! PROOFS. The bytes outside the opcode table (R47, R51 of 30_encoding.md), and O18. -/

namespace Sys2Proof

/-- The nine opcodes are the only bytes that select a row (R47, R51). -/
theorem decodeOpcode_eq_none_iff (op : Byte) :
    decodeOpcode op = none ↔ op ∉ ([0x82, 0xA0, 0xA2, 0x47, 0x45, 0x46, 0x50, 0x11, 0x01] : List Byte) := by
  simp only [List.mem_cons, List.not_mem_nil, or_false, not_or, ← BitVec.toNat_inj]
  unfold decodeOpcode
  split
  case h_10 => simp_all
  all_goals simp [*]

/-- Of the 256 byte values all but the nine opcodes select no row (R51). -/
theorem length_illegalOpcodes :
    ((List.range 256).filter (fun n => (decodeOpcode (BitVec.ofNat 8 n)).isNone)).length = 247 := by
  decide +kernel

end Sys2Proof

namespace Sys2Proof.Machine

/-- An opcode in no row ends the fetch before any operand byte is read (R33, R51). -/
theorem State.fetch_illegal {s : State} (h : decodeOpcode (s.mem.read s.pc.toNat) = none) :
    s.fetch = .error .illegalInstruction := by
  rw [State.fetch, State.memRead_byte, bind_ok, h]

/-- A running Machine fetches, decodes and executes (R57). -/
theorem step_of_running {s : State} (hs : s.st = .running) : step s = s.stepRunning :=
  if_pos ((State.running_iff s).mpr hs)

/-- A fetch that fails is the fault of the step (R57, R61). -/
theorem State.stepRunning_of_fetch_error {s : State} {kind : FaultKind} (h : s.fetch = .error kind) :
    s.stepRunning = .next (s.faultedWith kind) := by
  unfold State.stepRunning
  simp only [h, State.takeFault_eq]

/-- Settles O18: the count is over all byte values; a byte outside the nine fails in the fetch, where nothing
but the opcode byte has been read. -/
theorem illegalOpcodeFaults : Obligations.IllegalOpcodeFaults := by
  refine ⟨length_illegalOpcodes, fun s hs illegal => ?_⟩
  have fetchFails : s.fetch = .error .illegalInstruction :=
    State.fetch_illegal ((decodeOpcode_eq_none_iff _).mpr illegal)
  exact (step_of_running hs).trans (State.stepRunning_of_fetch_error fetchFails)

end Sys2Proof.Machine
end

section
/-! PROOFS. The execution cycle (40_execution_cycle.md). The checks of R58 and the effect an instruction has once every
check has passed determine `exec` and `step`; O12, O15, O16, O17, O19 and O51 follow. -/

namespace Sys2Proof.Machine

/-! ### Checked results -/

/-- The value `a` behind a list of checks: it is answered unless a check fails, and then the first that does is. -/
def checked {α : Type} (checks : List Check) (a : α) : Except FaultKind α :=
  match firstFailing checks with
  | none => .ok a
  | some kind => .error kind

theorem checked_of_none {α : Type} {checks : List Check} (h : firstFailing checks = none) (a : α) :
    checked checks a = .ok a := by
  rw [checked, h]

theorem checked_of_some {α : Type} {checks : List Check} {kind : FaultKind} (h : firstFailing checks = some kind)
    (a : α) : checked checks a = .error kind := by
  rw [checked, h]

theorem checked_cons {α : Type} (p : Prop) [Decidable p] (kind : FaultKind) (checks : List Check) (a : α) :
    checked ((decide p, kind) :: checks) a = if p then .error kind else checked checks a := by
  by_cases h : p <;> simp [checked, firstFailing, h]

theorem checked_beq {α : Type} (v w : Byte) (kind : FaultKind) (checks : List Check) (a : α) :
    checked ((v == w, kind) :: checks) a = if v = w then .error kind else checked checks a := by
  by_cases h : v = w <;> simp [checked, firstFailing, h]

theorem pure_eq_checked {α : Type} (a : α) : (pure a : Except FaultKind α) = checked [] a := rfl

theorem firstFailing_append (checks more : List Check) :
    firstFailing (checks ++ more) = (firstFailing checks).or (firstFailing more) := by
  induction checks with
  | nil => rfl
  | cons c checks ih =>
    simp only [List.cons_append, firstFailing, ih]
    split <;> rfl

/-- Checked results in sequence make their checks in sequence (R58, R59). -/
theorem checked_bind {α β : Type} (checks : List Check) (more : α → List Check) (a : α) (b : α → β) :
    (checked checks a >>= fun x => checked (more x) (b x)) = checked (checks ++ more a) (b a) := by
  unfold checked
  rw [firstFailing_append]
  cases firstFailing checks <;> rfl

/-! ### The shared operations as checked results -/

/-- The register an operand byte names once `RegIndex` has passed (R49). What it is for 8 to 255 says nothing about
the unit: no instruction gets that far. -/
def namedReg (v : Byte) : Fin 8 := Fin.ofNat 8 v.toNat

theorem namedReg_of_lt {v : Byte} (h : v.toNat < 8) : namedReg v = ⟨v.toNat, h⟩ :=
  Fin.ext (Nat.mod_eq_of_lt h)

theorem namedReg_eq_spIndex_iff {v : Byte} (h : v.toNat < 8) : namedReg v = Config.spIndex ↔ v = 7 := by
  rw [namedReg_of_lt h, Fin.ext_iff, ← BitVec.toNat_inj]
  rfl

theorem regIndex_eq_checked (v : Byte) :
    regIndex v = checked [(decide (7 < v.toNat), .outOfRangeAccess)] (namedReg v) := by
  rw [checked_cons]
  split
  · exact regIndex_error ‹_›
  · have hlt : v.toNat < 8 := by omega
    rw [regIndex_ok hlt, namedReg_of_lt hlt, checked_of_none rfl]

theorem successor_eq_checked (pc0 : Byte) (n : Nat) :
    successor pc0 n =
      checked [(decide (255 < pc0.toNat + (n + 1)), .outOfRangeAccess)] (pc0 + BitVec.ofNat 8 (n + 1)) := by
  rw [checked_cons]
  split
  · exact successor_error (by omega)
  · have hsum : BitVec.ofNat 8 (pc0.toNat + 1 + n) = pc0 + BitVec.ofNat 8 (n + 1) := by
      rw [Nat.add_assoc, Nat.add_comm 1, BitVec.ofNat_add, BitVec.ofNat_toNat, BitVec.setWidth_eq]
    rw [successor_ok (by omega), hsum, checked_of_none rfl]

theorem State.stackDec_eq_checked (s : State) :
    s.stackDec = checked [(s.sp == 0, .stackUnderflow)] (s.setSp (s.sp - 1)) := by
  rw [checked_beq]
  split
  · exact State.stackDec_error ‹_›
  · exact State.stackDec_ok ‹_›

theorem State.stackInc_eq_checked (s : State) :
    s.stackInc = checked [(decide (0xF4 ≤ s.sp.toNat), .stackOverflow)] (s.setSp (s.sp + 1)) := by
  rw [checked_cons]
  split
  · exact State.stackInc_error ‹_›
  · exact State.stackInc_ok (by omega)

/-! ### What an instruction does -/

/-- The state an instruction leaves when all its checks pass (R66 to R81), its statements in the order written. -/
def State.completed (s : State) : Instr → State
  | .ldi a imm => (s.writeReg (namedReg a) imm).setPc (s.pc + 3)
  | .add a b =>
    (s.writeReg (namedReg a) (aluResult (exactSum (s.readReg (namedReg a)) (s.readReg (namedReg b))))).setPc (s.pc + 3)
  | .mul a b =>
    (s.writeReg (namedReg a) (aluResult (exactProduct (s.readReg (namedReg a)) (s.readReg (namedReg b))))).setPc
      (s.pc + 3)
  | .prn a => (s.emit (s.readReg (namedReg a))).setPc (s.pc + 2)
  | .push a =>
    let t := s.setSp (s.sp - 1)
    State.setPc { t with mem := s.mem.write (s.sp - 1).toNat (t.readReg (namedReg a)) } (s.pc + 2)
  | .pop a =>
    let t := s.writeReg (namedReg a) (s.mem.read s.sp.toNat)
    (t.setSp (t.sp + 1)).setPc (s.pc + 2)
  | .call a =>
    let t := s.setSp (s.sp - 1)
    State.setPc { t with mem := s.mem.write (s.sp - 1).toNat (s.pc + 2) } (t.readReg (namedReg a))
  | .ret => (s.setSp (s.sp + 1)).setPc (s.mem.read s.sp.toNat)
  | .halt => s.haltRun

theorem execLdi_eq (a imm : Byte) (s : State) :
    execLdi a imm s = commit s (checked (instrChecks (.ldi a imm) s) (s.completed (.ldi a imm))) := by
  simp only [execLdi, regIndex_eq_checked, successor_eq_checked, pure_eq_checked, checked_bind]
  rfl

/-- ADD and MUL make the same checks and differ in the exact value alone. -/
theorem aluInstruction_eq (exact : Byte → Byte → Nat) (a b : Byte) (s : State) :
    aluInstruction exact a b s = commit s (checked (instrChecks (.add a b) s)
      ((s.writeReg (namedReg a) (aluResult (exact (s.readReg (namedReg a)) (s.readReg (namedReg b))))).setPc
        (s.pc + 3))) := by
  simp only [aluInstruction, regIndex_eq_checked, successor_eq_checked, pure_eq_checked, checked_bind]
  rfl

theorem execPrn_eq (a : Byte) (s : State) :
    execPrn a s = commit s (checked (instrChecks (.prn a) s) (s.completed (.prn a))) := by
  simp only [execPrn, regIndex_eq_checked, successor_eq_checked, pure_eq_checked, checked_bind]
  rfl

theorem execPush_eq (a : Byte) (s : State) :
    execPush a s = commit s (checked (instrChecks (.push a) s) (s.completed (.push a))) := by
  simp only [execPush, regIndex_eq_checked, State.stackDec_eq_checked, successor_eq_checked, State.memWrite_byte,
    bind_ok, pure_eq_checked, checked_bind, State.sp_setSp]
  rfl

/-- POP checks the value SP holds after the register is written (R76, decision D10), which is the popped one for POP 7
alone. For an operand that names no register that check is not reached. -/
theorem execPop_eq (a : Byte) (s : State) :
    execPop a s = commit s (checked (instrChecks (.pop a) s) (s.completed (.pop a))) := by
  by_cases h : 7 < a.toNat
  · have fails : checked (instrChecks (.pop a) s) (s.completed (.pop a)) = .error .outOfRangeAccess :=
      (checked_cons ..).trans (if_pos h)
    rw [execPop, regIndex_error h, bind_error, fails]
  · have hsp : (s.writeReg (namedReg a) (s.mem.read s.sp.toNat)).sp =
        if a = 7 then s.mem.read s.sp.toNat else s.sp := by
      rw [State.sp_writeReg, if_congr (namedReg_eq_spIndex_iff (by omega)) rfl rfl]
    simp only [execPop, regIndex_eq_checked, State.stackInc_eq_checked, successor_eq_checked, State.memRead_byte,
      bind_ok, pure_eq_checked, checked_bind, State.completed, hsp]
    rfl

theorem execCall_eq (a : Byte) (s : State) :
    execCall a s = commit s (checked (instrChecks (.call a) s) (s.completed (.call a))) := by
  simp only [execCall, regIndex_eq_checked, State.stackDec_eq_checked, successor_eq_checked, State.memWrite_byte,
    bind_ok, pure_eq_checked, checked_bind, State.sp_setSp]
  rfl

theorem execRet_eq (s : State) : execRet s = commit s (checked (instrChecks .ret s) (s.completed .ret)) := by
  simp only [execRet, State.stackInc_eq_checked, State.memRead_byte, bind_ok, pure_eq_checked, checked_bind]
  rfl

/-- An instruction takes the fault of its first failing check in the order of R58, and has its whole effect if none
fails. -/
theorem exec_eq (i : Instr) (s : State) : exec i s = commit s (checked (instrChecks i s) (s.completed i)) := by
  cases i with
  | ldi a imm => exact execLdi_eq a imm s
  | add a b => exact aluInstruction_eq exactSum a b s
  | mul a b => exact aluInstruction_eq exactProduct a b s
  | prn a => exact execPrn_eq a s
  | push a => exact execPush_eq a s
  | pop a => exact execPop_eq a s
  | call a => exact execCall_eq a s
  | ret => exact execRet_eq s
  | halt => rfl

theorem exec_of_pass {i : Instr} {s : State} (h : firstFailing (instrChecks i s) = none) :
    exec i s = .next (s.completed i) := by
  rw [exec_eq, checked_of_none h, commit_ok]

theorem exec_of_fail {i : Instr} {s : State} {kind : FaultKind} (h : firstFailing (instrChecks i s) = some kind) :
    exec i s = .next (s.faultedWith kind) := by
  rw [exec_eq, checked_of_some h, commit_error]

/-- HALT alone ends a run without a fault (R56, R81). -/
theorem State.completed_st (s : State) (i : Instr) : (s.completed i).st = if i = .halt then .halted else s.st := by
  cases i <;> rfl

/-- An instruction that completes leaves the fault record (R18). -/
theorem State.completed_faultRec (s : State) (i : Instr) : (s.completed i).faultRec = s.faultRec := by
  cases i <;> rfl

end Sys2Proof.Machine

/-! ### Decoding with and without the operand bytes -/

namespace Sys2Proof

theorem decodeOne_missing (make : Byte → Instr) {bytes : List Byte} (h : bytes.length < 1) :
    decodeOne make bytes = .error .missingOperand := by
  match bytes, h with
  | [], _ => rfl

theorem decodeTwo_missing (make : Byte → Byte → Instr) {bytes : List Byte} (h : bytes.length < 2) :
    decodeTwo make bytes = .error .missingOperand := by
  match bytes, h with
  | [], _ => rfl
  | [_], _ => rfl

/-- A row whose operand bytes are not all there decodes to nothing (R45, R48). -/
theorem decodeOperands_missing {m : Mnemonic} {bytes : List Byte} (h : bytes.length < m.operandCount) :
    decodeOperands m bytes = .error .missingOperand := by
  cases m with
  | ldi | add | mul => exact decodeTwo_missing _ h
  | prn | push | pop | call => exact decodeOne_missing _ h
  | ret | halt => exact absurd h (Nat.not_lt_zero _)

theorem decodeOne_take (make : Byte → Instr) {bytes : List Byte} (h : 1 ≤ bytes.length) :
    ∃ i rest, decodeOne make bytes = .ok (i, rest) ∧ decodeOne make (bytes.take 1) = .ok (i, []) := by
  match bytes, h with
  | a :: rest, _ => exact ⟨make a, rest, rfl, rfl⟩

theorem decodeTwo_take (make : Byte → Byte → Instr) {bytes : List Byte} (h : 2 ≤ bytes.length) :
    ∃ i rest, decodeTwo make bytes = .ok (i, rest) ∧ decodeTwo make (bytes.take 2) = .ok (i, []) := by
  match bytes, h with
  | a :: b :: rest, _ => exact ⟨make a b, rest, rfl, rfl⟩

/-- A row whose operand bytes are there decodes to an instruction, which the bytes behind them do not change (R48). -/
theorem decodeOperands_take {m : Mnemonic} {bytes : List Byte} (h : m.operandCount ≤ bytes.length) :
    ∃ i rest, decodeOperands m bytes = .ok (i, rest) ∧
      decodeOperands m (bytes.take m.operandCount) = .ok (i, []) := by
  cases m with
  | ldi | add | mul => exact decodeTwo_take _ h
  | prn | push | pop | call => exact decodeOne_take _ h
  | ret => exact ⟨.ret, bytes, rfl, rfl⟩
  | halt => exact ⟨.halt, bytes, rfl, rfl⟩

theorem Mnemonic.operandCount_le (m : Mnemonic) : m.operandCount ≤ 2 := by
  cases m <;> decide

theorem decode_of_row {op : Byte} {m : Mnemonic} (h : decodeOpcode op = some m) (bytes : List Byte) :
    decode (op :: bytes) = decodeOperands m bytes := by
  rw [decode, h]

theorem decode_of_no_row {op : Byte} (h : decodeOpcode op = none) (bytes : List Byte) :
    decode (op :: bytes) = .error (.illegalOpcode op) := by
  rw [decode, h]

end Sys2Proof

namespace Sys2Proof.Machine

/-! ### Fetching -/

/-- `n` cells from an address upward. -/
def Memory.cellsFrom (m : Memory) (addr n : Nat) : List Byte := (List.range n).map (fun k => m.read (addr + k))

@[simp] theorem Memory.length_cellsFrom (m : Memory) (addr n : Nat) : (m.cellsFrom addr n).length = n := by
  simp [Memory.cellsFrom]

theorem Memory.cellsFrom_succ (m : Memory) (addr n : Nat) :
    m.cellsFrom addr (n + 1) = m.read addr :: m.cellsFrom (addr + 1) n := by
  simp [Memory.cellsFrom, List.range_succ_eq_map, Nat.add_comm, Nat.add_left_comm]

theorem Memory.take_cellsFrom (m : Memory) (addr : Nat) {k n : Nat} (h : k ≤ n) :
    (m.cellsFrom addr n).take k = m.cellsFrom addr k := by
  rw [Memory.cellsFrom, ← List.map_take, List.take_range, Nat.min_eq_left h, Memory.cellsFrom]

/-- The bytes at PC are the opcode byte and as many of two operand bytes as have an address. -/
theorem State.bytesAtPc_eq_cons (s : State) :
    s.bytesAtPc = s.mem.read s.pc.toNat :: s.mem.cellsFrom (s.pc.toNat + 1) (min 2 (255 - s.pc.toNat)) := by
  have hlen : min (1 + Config.maxOperands) (Config.memSize - s.pc.toNat) = min 2 (255 - s.pc.toNat) + 1 := by
    have := s.pc.isLt
    simp only [memSize_eq, maxOperands_eq]
    omega
  rw [← Memory.cellsFrom_succ, ← hlen]
  rfl

/-- Operand bytes are read one by one, and the first address above 255 ends the fetch (R57, R84). -/
theorem State.fetchOperands_eq_checked (s : State) {addr : Nat} (haddr : addr ≤ 256) (n : Nat) :
    s.fetchOperands addr n = checked [(decide (256 < addr + n), .outOfRangeAccess)] (s.mem.cellsFrom addr n) := by
  induction n generalizing addr with
  | zero =>
    rw [checked_cons, if_neg (by omega)]
    rfl
  | succ n ih =>
    rw [State.fetchOperands]
    by_cases h : addr < 256
    · have hnext : s.fetchOperands (addr + 1) n = _ := ih (addr := addr + 1) (by omega)
      simp only [s.memRead_below h, bind_ok, hnext, pure_eq_checked, checked_bind, List.append_nil]
      rw [Memory.cellsFrom_succ, Nat.add_assoc, Nat.add_comm 1]
    · rw [s.memRead_above (by omega), bind_error, checked_cons, if_pos (by omega)]

/-- The bytes at PC spell no opcode, or too few operand bytes have an address, or they spell an instruction that the
opcode byte and as many operand bytes as its row calls for spell by themselves (R45, R48, R51). -/
theorem State.decode_bytesAtPc_cases (s : State) :
    (decodeOpcode (s.mem.read s.pc.toNat) = none ∧
      decode s.bytesAtPc = .error (.illegalOpcode (s.mem.read s.pc.toNat))) ∨
    ∃ m, decodeOpcode (s.mem.read s.pc.toNat) = some m ∧
      ((255 < s.pc.toNat + m.operandCount ∧ decode s.bytesAtPc = .error .missingOperand) ∨
       (s.pc.toNat + m.operandCount ≤ 255 ∧ ∃ i rest, decode s.bytesAtPc = .ok (i, rest) ∧
        decode (s.mem.read s.pc.toNat :: s.mem.cellsFrom (s.pc.toNat + 1) m.operandCount) = .ok (i, []))) := by
  rw [s.bytesAtPc_eq_cons]
  cases h : decodeOpcode (s.mem.read s.pc.toNat) with
  | none => exact .inl ⟨rfl, decode_of_no_row h _⟩
  | some m =>
    have hcount := m.operandCount_le
    refine .inr ⟨m, rfl, ?_⟩
    rw [decode_of_row h, decode_of_row h]
    rcases Nat.lt_or_ge 255 (s.pc.toNat + m.operandCount) with hover | hfits
    · exact .inl ⟨hover, decodeOperands_missing (by rw [Memory.length_cellsFrom]; omega)⟩
    · have henough : m.operandCount ≤ min 2 (255 - s.pc.toNat) := by omega
      rw [← s.mem.take_cellsFrom (s.pc.toNat + 1) henough]
      exact .inr ⟨hfits, decodeOperands_take (by rwa [Memory.length_cellsFrom])⟩

theorem State.decode_bytesAtPc_ne_noOpcode (s : State) : decode s.bytesAtPc ≠ .error .noOpcode := by
  rcases s.decode_bytesAtPc_cases with ⟨-, h⟩ | ⟨m, -, ⟨-, h⟩ | ⟨-, i, rest, h, -⟩⟩ <;> simp [h]

/-- A row whose operand bytes have no address ends the fetch (R57, R84). -/
theorem State.fetch_missing {s : State} {m : Mnemonic} (h : decodeOpcode (s.mem.read s.pc.toNat) = some m)
    (hover : 255 < s.pc.toNat + m.operandCount) : s.fetch = .error .outOfRangeAccess := by
  have hpc := s.pc.isLt
  have hread : s.fetchOperands (s.pc.toNat + 1) m.operandCount = .error .outOfRangeAccess := by
    rw [← Nat.cast_succ, s.fetchOperands_eq_checked hpc, checked_cons, if_pos (by omega)]
  simp only [State.fetch, State.memRead_byte, bind_ok, h, hread, bind_error]

/-- A row whose operand bytes have an address is fetched with exactly those (R45, R57). -/
theorem State.fetch_complete {s : State} {m : Mnemonic} (h : decodeOpcode (s.mem.read s.pc.toNat) = some m)
    (hfits : s.pc.toNat + m.operandCount ≤ 255) {i : Instr}
    (hi : decode (s.mem.read s.pc.toNat :: s.mem.cellsFrom (s.pc.toNat + 1) m.operandCount) = .ok (i, [])) :
    s.fetch = .ok i := by
  have hread : s.fetchOperands (s.pc.toNat + 1) m.operandCount =
      .ok (s.mem.cellsFrom (s.pc.toNat + 1) m.operandCount) := by
    rw [← Nat.cast_succ, s.fetchOperands_eq_checked s.pc.isLt, checked_cons, if_neg (by omega), checked_of_none rfl]
  simp only [State.fetch, State.memRead_byte, bind_ok, h, hread, hi]

/-- The fetch answers the instruction that the bytes at PC spell, or the fault of why they spell none (R57). -/
theorem State.fetch_eq (s : State) : s.fetch = ((decode s.bytesAtPc).mapError decodeFault).map Prod.fst := by
  rcases s.decode_bytesAtPc_cases with ⟨hrow, h⟩ | ⟨m, hrow, ⟨hover, h⟩ | ⟨hfits, i, rest, h, hi⟩⟩ <;> rw [h]
  · exact State.fetch_illegal hrow
  · exact State.fetch_missing hrow hover
  · exact State.fetch_complete hrow hfits hi

theorem State.stepRunning_of_fetch {s : State} {i : Instr} (h : s.fetch = .ok i) : s.stepRunning = exec i s := by
  unfold State.stepRunning
  simp only [h]

/-! ### The step of a running Machine -/

theorem step_of_decode {s : State} (hs : s.st = .running) {i : Instr} {rest : List Byte}
    (h : decode s.bytesAtPc = .ok (i, rest)) : step s = exec i s := by
  have hfetch : s.fetch = .ok i := by
    rw [State.fetch_eq, h]
    rfl
  rw [step_of_running hs, State.stepRunning_of_fetch hfetch]

theorem step_of_decode_error {s : State} (hs : s.st = .running) {e : DecodeError}
    (h : decode s.bytesAtPc = .error e) : step s = .next (s.faultedWith (decodeFault e)) := by
  have hfetch : s.fetch = .error (decodeFault e) := by
    rw [State.fetch_eq, h]
    rfl
  rw [step_of_running hs, State.stepRunning_of_fetch_error hfetch]

/-- Once the bytes decode, the checks of the fetch have passed and the instruction's own remain (R58). -/
theorem firstFailing_stepChecks_of_decode {s : State} {i : Instr} {rest : List Byte}
    (h : decode s.bytesAtPc = .ok (i, rest)) : firstFailing (stepChecks s) = firstFailing (instrChecks i s) := by
  rcases s.decode_bytesAtPc_cases with ⟨-, hd⟩ | ⟨m, hrow, ⟨-, hd⟩ | ⟨hfits, -⟩⟩
  · simp [hd] at h
  · simp [hd] at h
  · rw [stepChecks, hrow]
    simp only [h]
    rw [firstFailing_cons, if_neg (by omega)]

/-- Where the bytes do not decode, it is a check of the fetch that fails first, with the kind the fetch raises (R57,
R58). -/
theorem firstFailing_stepChecks_of_decode_error {s : State} {e : DecodeError} (h : decode s.bytesAtPc = .error e) :
    firstFailing (stepChecks s) = some (decodeFault e) := by
  rcases s.decode_bytesAtPc_cases with ⟨hrow, hd⟩ | ⟨m, hrow, ⟨hover, hd⟩ | ⟨-, i, rest, hd, -⟩⟩
  · cases hd.symm.trans h
    rw [stepChecks, hrow]
    rfl
  · cases hd.symm.trans h
    rw [stepChecks, hrow]
    exact (firstFailing_cons ..).trans (if_pos hover)
  · simp [hd] at h

/-- A step takes the fault of its first failing check (R58, R61). -/
theorem step_of_fail {s : State} (hs : s.st = .running) {kind : FaultKind}
    (h : firstFailing (stepChecks s) = some kind) : step s = .next (s.faultedWith kind) := by
  cases hd : decode s.bytesAtPc with
  | ok decoded =>
    rw [step_of_decode hs hd, exec_of_fail (firstFailing_stepChecks_of_decode hd ▸ h)]
  | error e =>
    cases (firstFailing_stepChecks_of_decode_error hd).symm.trans h
    exact step_of_decode_error hs hd

/-- A step with no failing check decodes an instruction and has its whole effect (R57 to R59). -/
theorem step_of_pass {s : State} (hs : s.st = .running) (h : firstFailing (stepChecks s) = none) :
    ∃ i rest, decode s.bytesAtPc = .ok (i, rest) ∧ step s = .next (s.completed i) := by
  cases hd : decode s.bytesAtPc with
  | ok decoded =>
    refine ⟨decoded.1, decoded.2, rfl, ?_⟩
    rw [step_of_decode hs hd, exec_of_pass (firstFailing_stepChecks_of_decode hd ▸ h)]
  | error e => simp [firstFailing_stepChecks_of_decode_error hd] at h

/-- A completed instruction leaves a running Machine running or halted (R56). -/
theorem State.completed_st_of_running {s : State} (hs : s.st = .running) (i : Instr) :
    (s.completed i).st = .running ∨ (s.completed i).st = .halted := by
  rw [State.completed_st, hs]
  split
  · exact .inr rfl
  · exact .inl rfl

/-! ### A stopped Machine -/

/-- Outside `Running` a step changes nothing (R62). -/
theorem step_of_stopped {s : State} (hs : s.st ≠ .running) : step s = .next s :=
  if_neg (mt (State.running_iff s).mp hs)

theorem State.run_of_stopped {s : State} (hs : s.st ≠ .running) (budget : Nat) : s.run budget = s := by
  cases budget with
  | zero => rfl
  | succ n => exact if_neg (mt (State.running_iff s).mp hs)

/-- The host's `Step` answers the run state after the step (R57). -/
theorem HostOp.perform_step {s t : State} (h : Sys2Proof.Machine.step s = .next t) :
    HostOp.perform .step s = (.runState t.st, t) := by
  rw [HostOp.perform, State.afterStep_eq h]

/-! ### PC after a completed instruction -/

theorem firstFailing_eq_none_iff (checks : List Check) :
    firstFailing checks = none ↔ ∀ c ∈ checks, c.1 = false := by
  induction checks with
  | nil => simp
  | cons c checks ih => cases h : c.1 <;> simp [firstFailing, h, ih]

/-- If all checks of an instruction pass, its register operands name registers (R49). -/
theorem regOperands_lt_of_pass {i : Instr} {s : State} (h : firstFailing (instrChecks i s) = none) :
    ∀ v ∈ i.regOperands, v.toNat < 8 := by
  intro v hv
  have hcheck := (firstFailing_eq_none_iff _).mp h (decide (7 < v.toNat), .outOfRangeAccess) (by
    simp only [instrChecks, List.mem_append]
    exact .inl (.inl (List.mem_map_of_mem hv)))
  have := of_decide_eq_false hcheck
  omega

/-- If all checks of an instruction pass, so does that of its successor address (R60). -/
theorem successorChecks_pass {i : Instr} {s : State} (h : firstFailing (instrChecks i s) = none) :
    firstFailing (successorChecks s i) = none :=
  (firstFailing_eq_none_iff _).mpr fun c hc =>
    (firstFailing_eq_none_iff _).mp h c (List.mem_append_right _ hc)

/-- A successor address that passes its check is the exact sum (R16, R60). -/
theorem toNat_successor_of_pass {pc0 : Byte} {n : Nat} {kind : FaultKind}
    (h : firstFailing [(decide (255 < pc0.toNat + n), kind)] = none) :
    (pc0 + BitVec.ofNat 8 n).toNat = pc0.toNat + n := by
  have hle : ¬ 255 < pc0.toNat + n := by
    intro hover
    simp [firstFailing, hover] at h
  rw [BitVec.toNat_add, BitVec.toNat_ofNat]
  omega

/-- CALL jumps to its register as read after the decrement of SP (R78, decision D10). -/
theorem State.completed_call_pc (s : State) {a : Byte} (h : a.toNat < 8) :
    (s.completed (.call a)).pc = (s.regs.set 7 (s.sp - 1))[a.toNat] := by
  change (s.setSp (s.sp - 1)).readReg (namedReg a) = _
  rw [namedReg_of_lt h]
  rfl

/-! ### How a step ends a run -/

/-- A step of a running Machine halts exactly when it runs HALT (R56, R81). -/
theorem State.afterStep_halted_iff {s : State} (hs : s.st = .running) :
    s.afterStep.st = .halted ↔ ∃ rest, decode s.bytesAtPc = .ok (.halt, rest) := by
  constructor
  · intro halted
    cases hc : firstFailing (stepChecks s) with
    | none =>
      obtain ⟨i, rest, hd, hstep⟩ := step_of_pass hs hc
      rw [State.afterStep_eq hstep, State.completed_st, hs] at halted
      have hi : i = .halt := by simpa using halted
      exact ⟨rest, hi ▸ hd⟩
    | some kind => simp [State.afterStep_eq (step_of_fail hs hc)] at halted
  · rintro ⟨rest, hd⟩
    rw [State.afterStep_eq (step_of_decode hs hd)]
    rfl

/-- A step of a running Machine faults exactly when a check fails, with the kind of the first that does (R56, R58). -/
theorem State.afterStep_faulted_iff {s : State} (hs : s.st = .running) (kind : FaultKind) :
    s.afterStep.st = .faulted kind ↔ firstFailing (stepChecks s) = some kind := by
  cases hc : firstFailing (stepChecks s) with
  | none =>
    obtain ⟨i, rest, -, hstep⟩ := step_of_pass hs hc
    rw [State.afterStep_eq hstep]
    rcases State.completed_st_of_running hs i with h | h <;> simp [h]
  | some raised => simp [State.afterStep_eq (step_of_fail hs hc)]

/-! ### The obligations -/

/-- Settles O16: the bytes at PC decode or not, and either way the first failing check is the one the step takes. -/
theorem stepTakesTheFirstFailingCheck : Obligations.StepTakesTheFirstFailingCheck := by
  intro s hs
  refine ⟨fun kind => step_of_fail hs, fun pass => ?_⟩
  obtain ⟨i, rest, -, hstep⟩ := step_of_pass hs pass
  exact ⟨_, hstep, State.completed_st_of_running hs i, s.completed_faultRec i⟩

/-- Settles O17: a step with no failing check does not end in a fault, and one with a failing check leaves the state
that R61 writes out. -/
theorem faultingStepIsPrecise : Obligations.FaultingStepIsPrecise := by
  intro s t kind hs hstep hfault
  cases hc : firstFailing (stepChecks s) with
  | none =>
    obtain ⟨i, rest, -, hpass⟩ := step_of_pass hs hc
    cases hpass.symm.trans hstep
    rcases State.completed_st_of_running hs i with h | h <;> simp [h] at hfault
  | some raised =>
    cases (step_of_fail hs hc).symm.trans hstep
    cases hfault
    exact ⟨rfl, rfl, rfl, rfl, rfl, rfl⟩

/-- Settles O19: a completed instruction has passed its successor check, so the sum does not wrap. -/
theorem programCounterAfterAStep : Obligations.ProgramCounterAfterAStep := by
  intro s i rest hs hd
  rw [step_of_decode hs hd]
  cases hc : firstFailing (instrChecks i s) with
  | some kind => exact ⟨_, exec_of_fail hc, .inl ⟨⟨kind, rfl⟩, rfl⟩⟩
  | none =>
    refine ⟨_, exec_of_pass hc, .inr ⟨State.completed_st_of_running hs i, ?_⟩⟩
    have hsucc := successorChecks_pass hc
    cases i with
    | ldi | add | mul | prn | push | pop => exact toNat_successor_of_pass hsucc
    | call a =>
      have ha : a.toNat < 8 := regOperands_lt_of_pass hc a (List.mem_singleton_self a)
      exact ⟨ha, s.completed_call_pc ha⟩
    | ret | halt => rfl

/-- Settles O51: a step's two ways to stop are `afterStep_halted_iff` and `afterStep_faulted_iff`; `Load` decides by
the length and the run state. -/
theorem runStateTransitions : Obligations.RunStateTransitions := by
  intro s
  refine ⟨rfl, fun hs => ⟨State.afterStep_halted_iff hs, State.afterStep_faulted_iff hs, fun bytes large => ?_⟩,
    fun hs => ⟨?_, fun budget => ?_, fun bytes large => State.load_tooLarge_stopped large hs⟩,
    fun bytes fits => ?_, fun addr => ?_, fun addr v => ?_⟩
  · exact congrArg (fun r => r.2.st) (State.load_tooLarge_running large hs)
  · exact congrArg (fun r => r.2.st) (HostOp.perform_step (step_of_stopped hs))
  · exact congrArg State.st (State.run_of_stopped hs budget)
  · exact congrArg (fun r => r.2.st) (State.load_fits fits)
  · exact congrArg State.st (s.hostRead_state addr)
  · change (s.hostWrite addr v).2.st = s.st
    rcases s.hostWrite_state addr v with h | ⟨-, -, h⟩ <;> rw [h]

/-- Settles O12: the fetch answers what the bytes at PC decode to, and there is always an opcode byte. -/
theorem stepRunsTheDecodedInstruction : Obligations.StepRunsTheDecodedInstruction := by
  intro s hs
  exact ⟨fun i rest => step_of_decode hs, fun op => step_of_decode_error hs, step_of_decode_error hs,
    s.decode_bytesAtPc_ne_noOpcode, fun t => HostOp.perform_step⟩

/-- Settles O15: only a running Machine fetches. -/
theorem stepOutsideRunningChangesNothing : Obligations.StepOutsideRunningChangesNothing := by
  intro s hs
  exact ⟨step_of_stopped hs, HostOp.perform_step (step_of_stopped hs)⟩

end Sys2Proof.Machine
end

section
/-! PROOFS. LDI (R66 of 41_load_immediate.md), and O20. -/

namespace Sys2Proof.Machine

/-- The step of a running Machine faults where an operand byte its opcode calls for has no address (R57, R84). -/
theorem step_of_missing_operand {s : State} (hs : s.st = .running) {m : Mnemonic}
    (hrow : decodeOpcode (s.mem.read s.pc.toNat) = some m) (hover : 255 < s.pc.toNat + m.operandCount) :
    step s = .next (s.faultedWith .outOfRangeAccess) :=
  (step_of_running hs).trans (State.stepRunning_of_fetch_error (State.fetch_missing hrow hover))

/-- LDI checks its register operand and then its successor address (R58, R66). -/
theorem firstFailing_instrChecks_ldi (a imm : Byte) (s : State) :
    firstFailing (instrChecks (.ldi a imm) s) =
      if 7 < a.toNat then some .outOfRangeAccess
      else if 255 < s.pc.toNat + 3 then some .outOfRangeAccess else none := by
  change firstFailing [(decide (7 < a.toNat), _), (decide (255 < s.pc.toNat + 3), _)] = _
  rw [firstFailing_cons, firstFailing_cons, firstFailing_nil]

/-- A completed LDI has written its first operand's register and PC (R66). -/
theorem State.completed_ldi (s : State) {a : Byte} (imm : Byte) (h : a.toNat < 8) :
    s.completed (.ldi a imm) = { s with regs := s.regs.set a.toNat imm, pc := s.pc + 3 } := by
  rw [State.completed, namedReg_of_lt h]
  rfl

/-- Settles O20: LDI's two checks decide what `exec` does; where the operand bytes have no address the fetch fails. -/
theorem ldiLoadsItsImmediate : Obligations.LdiLoadsItsImmediate := by
  refine ⟨fun a imm rest => rfl, fun a imm s => ⟨fun ha hfits => ?_, fun ha => ?_, fun ha hover => ?_⟩,
    fun s hs hop hover => ?_⟩
  · have pass : firstFailing (instrChecks (.ldi a imm) s) = none := by
      rw [firstFailing_instrChecks_ldi, if_neg (by omega), if_neg (by omega)]
    rw [exec_of_pass pass, s.completed_ldi imm ha]
  · exact exec_of_fail (by rw [firstFailing_instrChecks_ldi, if_pos ha])
  · exact exec_of_fail (by rw [firstFailing_instrChecks_ldi, if_neg (by omega), if_pos hover])
  · have hrow : decodeOpcode (s.mem.read s.pc.toNat) = some .ldi := by
      rw [hop]
      rfl
    exact step_of_missing_operand hs hrow hover

end Sys2Proof.Machine
end

section
/-! PROOFS. The ALU and its two instructions (R67 to R69 of 42_alu.md), and O21, O22 and O41. -/

namespace Sys2Proof.Machine

/-! ### The ALU's two outputs -/

/-- No sum of two bytes needs more than 16 bits (R67). -/
theorem exactSum_lt (p q : Byte) : exactSum p q < 2 ^ 16 := by
  have hp := p.isLt
  have hq := q.isLt
  unfold exactSum
  omega

/-- No product of two bytes needs more than 16 bits (R67). -/
theorem exactProduct_lt (p q : Byte) : exactProduct p q < 2 ^ 16 := by
  have h : p.toNat * q.toNat < 2 ^ 8 * 2 ^ 8 := Nat.mul_lt_mul'' p.isLt q.isLt
  exact h

theorem toNat_aluResult (exact : Nat) : (aluResult exact).toNat = exact % 256 := BitVec.toNat_ofNat exact 8

/-- The value written is the exact value reduced modulo 256 first (R67). -/
theorem aluResult_eq_mod (exact : Nat) : aluResult exact = BitVec.ofNat 8 (exact % 256) :=
  BitVec.eq_of_toNat_eq (by rw [toNat_aluResult, BitVec.toNat_ofNat, Nat.mod_mod])

/-- The result is bits 7 to 0 of the exact value (R67). -/
theorem aluResult_eq_lowBits (exact : Nat) : aluResult exact = (BitVec.ofNat 16 exact).extractLsb 7 0 := by
  apply BitVec.eq_of_toNat_eq
  rw [toNat_aluResult, BitVec.extractLsb_toNat, BitVec.toNat_ofNat]
  omega

theorem aluOvf_iff (exact : Nat) : aluOvf exact = true ↔ 255 < exact := decide_eq_true_iff

/-- A 16-bit value exceeds 255 exactly when one of its bits 15 to 8 is set (R67, decision D15). -/
theorem highBits_ne_zero_iff {exact : Nat} (h : exact < 2 ^ 16) :
    (BitVec.ofNat 16 exact).extractLsb 15 8 ≠ 0 ↔ 255 < exact := by
  have high : ((BitVec.ofNat 16 exact).extractLsb 15 8).toNat = exact / 256 := by
    rw [BitVec.extractLsb_toNat, BitVec.toNat_ofNat, Nat.shiftRight_eq_div_pow]
    omega
  rw [ne_eq, ← BitVec.toNat_inj, high]
  change ¬ exact / 256 = 0 ↔ 255 < exact
  omega

/-- Settles O41: both exact values fit in 16 bits, so that bits 15 to 8 are all there is above the result. -/
theorem aluResultAndOverflow : Obligations.AluResultAndOverflow := by
  intro p q
  refine ⟨rfl, rfl, fun e he => ?_⟩
  have fits : e < 2 ^ 16 := by
    rcases List.mem_pair.mp he with rfl | rfl
    · exact exactSum_lt p q
    · exact exactProduct_lt p q
  exact ⟨toNat_aluResult e, aluResult_eq_lowBits e, aluOvf_iff e,
    (aluOvf_iff e).trans (highBits_ne_zero_iff fits).symm⟩

/-! ### What ADD and MUL share -/

/-- ADD checks its two register operands and then its successor address (R58, R68). `aluInstruction_eq` says that MUL
makes the same checks. -/
theorem firstFailing_instrChecks_add (a b : Byte) (s : State) :
    firstFailing (instrChecks (.add a b) s) =
      if 7 < a.toNat then some .outOfRangeAccess
      else if 7 < b.toNat then some .outOfRangeAccess
      else if 255 < s.pc.toNat + 3 then some .outOfRangeAccess else none := by
  change firstFailing [(decide (7 < a.toNat), _), (decide (7 < b.toNat), _), (decide (255 < s.pc.toNat + 3), _)] = _
  rw [firstFailing_cons, firstFailing_cons, firstFailing_cons, firstFailing_nil]

/-- With both operands registers and a successor address in range, the first register takes the exact value modulo 256
(R68, R69). -/
theorem aluInstruction_completes (exact : Byte → Byte → Nat) {a b : Byte} {s : State} (ha : a.toNat < 8)
    (hb : b.toNat < 8) (hfits : s.pc.toNat + 3 ≤ 255) :
    aluInstruction exact a b s = .next { s with
      regs := s.regs.set a.toNat (BitVec.ofNat 8 (exact s.regs[a.toNat] s.regs[b.toNat] % 256)), pc := s.pc + 3 } := by
  have pass : firstFailing (instrChecks (.add a b) s) = none := by
    rw [firstFailing_instrChecks_add, if_neg (by omega), if_neg (by omega), if_neg (by omega)]
  rw [aluInstruction_eq, checked_of_none pass, commit_ok, namedReg_of_lt ha, namedReg_of_lt hb, aluResult_eq_mod]
  rfl

theorem aluInstruction_of_fail (exact : Byte → Byte → Nat) {a b : Byte} {s : State} {kind : FaultKind}
    (h : firstFailing (instrChecks (.add a b) s) = some kind) :
    aluInstruction exact a b s = .next (s.faultedWith kind) := by
  rw [aluInstruction_eq, checked_of_some h, commit_error]

/-- An operand that names no register is the fault, whichever of the two it is (R49, R84). -/
theorem aluInstruction_not_register (exact : Byte → Byte → Nat) {a b : Byte} {s : State}
    (h : 7 < a.toNat ∨ 7 < b.toNat) : aluInstruction exact a b s = .next (s.faultedWith .outOfRangeAccess) := by
  apply aluInstruction_of_fail
  rw [firstFailing_instrChecks_add]
  by_cases ha : 7 < a.toNat
  · rw [if_pos ha]
  · rw [if_neg ha, if_pos (h.resolve_left ha)]

/-- A successor address above 255 is the fault, with nothing written (R60, decision D5). -/
theorem aluInstruction_no_successor (exact : Byte → Byte → Nat) {a b : Byte} {s : State} (ha : a.toNat < 8)
    (hb : b.toNat < 8) (hover : 255 < s.pc.toNat + 3) :
    aluInstruction exact a b s = .next (s.faultedWith .outOfRangeAccess) := by
  apply aluInstruction_of_fail
  rw [firstFailing_instrChecks_add, if_neg (by omega), if_neg (by omega), if_pos hover]

/-! ### ADD and MUL -/

theorem aluOvfOf_add {a b : Byte} (s : State) (ha : a.toNat < 8) (hb : b.toNat < 8) :
    aluOvfOf (.add a b) s = some (aluOvf (exactSum s.regs[a.toNat] s.regs[b.toNat])) := by
  simp only [aluOvfOf, regIndex_ok ha, regIndex_ok hb]
  rfl

theorem aluOvfOf_mul {a b : Byte} (s : State) (ha : a.toNat < 8) (hb : b.toNat < 8) :
    aluOvfOf (.mul a b) s = some (aluOvf (exactProduct s.regs[a.toNat] s.regs[b.toNat])) := by
  simp only [aluOvfOf, regIndex_ok ha, regIndex_ok hb]
  rfl

/-- Settles O21: ADD is the shared instruction with the exact sum; where the operand bytes have no address the fetch
fails. -/
theorem addAddsModulo256 : Obligations.AddAddsModulo256 := by
  refine ⟨fun a b rest => rfl, fun a b s => ⟨fun ha hb hfits => ?_, ?_, ?_⟩, fun s hs hop hover => ?_⟩
  · exact ⟨aluInstruction_completes exactSum ha hb hfits, aluOvfOf_add s ha hb⟩
  · exact aluInstruction_not_register exactSum
  · exact aluInstruction_no_successor exactSum
  · have hrow : decodeOpcode (s.mem.read s.pc.toNat) = some .add := by
      rw [hop]
      rfl
    exact step_of_missing_operand hs hrow hover

/-- Settles O22: MUL is the shared instruction with the exact product; where the operand bytes have no address the
fetch fails. -/
theorem mulMultipliesModulo256 : Obligations.MulMultipliesModulo256 := by
  refine ⟨fun a b rest => rfl, fun a b s => ⟨fun ha hb hfits => ?_, ?_, ?_⟩, fun s hs hop hover => ?_⟩
  · exact ⟨aluInstruction_completes exactProduct ha hb hfits, aluOvfOf_mul s ha hb⟩
  · exact aluInstruction_not_register exactProduct
  · exact aluInstruction_no_successor exactProduct
  · have hrow : decodeOpcode (s.mem.read s.pc.toNat) = some .mul := by
      rw [hop]
      rfl
    exact step_of_missing_operand hs hrow hover

end Sys2Proof.Machine
end

section
/-! PROOFS. PRN (R71 of 43_output.md), and O23. -/

namespace Sys2Proof.Machine

/-- PRN checks its register operand and then its successor address (R58, R71). -/
theorem firstFailing_instrChecks_prn (a : Byte) (s : State) :
    firstFailing (instrChecks (.prn a) s) =
      if 7 < a.toNat then some .outOfRangeAccess
      else if 255 < s.pc.toNat + 2 then some .outOfRangeAccess else none := by
  change firstFailing [(decide (7 < a.toNat), _), (decide (255 < s.pc.toNat + 2), _)] = _
  rw [firstFailing_cons, firstFailing_cons, firstFailing_nil]

/-- A completed PRN has appended its operand's register to the output and written PC (R71). -/
theorem State.completed_prn (s : State) {a : Byte} (h : a.toNat < 8) :
    s.completed (.prn a) = { s with out := s.out ++ [s.regs[a.toNat]], pc := s.pc + 2 } := by
  rw [State.completed, namedReg_of_lt h]
  rfl

/-- Settles O23: PRN's two checks decide what `exec` does; at PC = 255 the operand byte has no address and the fetch
fails. -/
theorem prnAppendsTheRegister : Obligations.PrnAppendsTheRegister := by
  refine ⟨fun a rest => rfl, fun a s => ⟨fun ha hfits => ?_, fun ha => ?_, fun ha hover => ?_⟩,
    fun s hs hop hpc => ?_⟩
  · have pass : firstFailing (instrChecks (.prn a) s) = none := by
      rw [firstFailing_instrChecks_prn, if_neg (by omega), if_neg (by omega)]
    rw [exec_of_pass pass, s.completed_prn ha]
  · exact exec_of_fail (by rw [firstFailing_instrChecks_prn, if_pos ha])
  · exact exec_of_fail (by rw [firstFailing_instrChecks_prn, if_neg (by omega), if_pos hover])
  · have hrow : decodeOpcode (s.mem.read s.pc.toNat) = some .prn := by
      rw [hop]
      rfl
    have hover : 255 < s.pc.toNat + Mnemonic.prn.operandCount := by
      rw [hpc]
      decide
    exact step_of_missing_operand hs hrow hover

end Sys2Proof.Machine
end

section
/-! PROOFS. The stack pointer's two checks and PUSH and POP (R73 to R76 of 44_stack.md), and O24, O25 and O40. -/

namespace Sys2Proof.Machine

/-! ### The decrement and the increment of SP -/

/-- Above 0 the decrement is exact: it does not wrap (R73). -/
theorem toNat_sub_one {v : Byte} (h : v ≠ 0) : (v - 1).toNat = v.toNat - 1 :=
  BitVec.toNat_sub_of_le (BitVec.le_def.mpr (BitVec.toNat_pos_of_ne_zero h))

/-- Below 0xF4 the increment is exact: it does not wrap (R74). -/
theorem toNat_add_one {v : Byte} (h : v.toNat < 0xF4) : (v + 1).toNat = v.toNat + 1 :=
  BitVec.toNat_add_of_lt (show v.toNat + 1 < 2 ^ 8 by omega)

/-- A write of SP is the write of register 7 with the value SP then holds (R12). -/
theorem State.setSp_eq_writeReg (s : State) (v : Byte) : s.setSp v = s.writeReg 7 (s.setSp v).sp := by
  rw [State.sp_setSp]
  rfl

/-- Settles O40: below its bound each check lets through an exact update of SP. -/
theorem stackPointerChecks : Obligations.StackPointerChecks := by
  refine fun s => ⟨State.stackDec_error, fun h => ?_, fun h => ?_, fun h => ?_⟩
  · have lowered : (s.setSp (s.sp - 1)).sp.toNat + 1 = s.sp.toNat := by
      rw [State.sp_setSp, toNat_sub_one h, Nat.sub_add_cancel (BitVec.toNat_pos_of_ne_zero h)]
    exact ⟨_, State.stackDec_ok h, lowered, s.setSp_eq_writeReg _⟩
  · exact State.stackInc_error (by omega)
  · have below : s.sp.toNat < 0xF4 := h
    have raised : (s.setSp (s.sp + 1)).sp.toNat = s.sp.toNat + 1 := by
      rw [State.sp_setSp, toNat_add_one below]
    exact ⟨_, State.stackInc_ok below, raised, s.setSp_eq_writeReg _⟩

/-! ### What PUSH and POP share -/

/-- At PC = 255 an instruction with operand bytes has no address for them, and the fetch is the fault (R57, R84). -/
theorem step_of_operand_beyond_memory {s : State} (hs : s.st = .running) (hpc : s.pc = 255) {m : Mnemonic}
    (hrow : decodeOpcode (s.mem.read s.pc.toNat) = some m) (hm : 1 ≤ m.operandCount) :
    step s = .next (s.faultedWith .outOfRangeAccess) := by
  have hlast : s.pc.toNat = 255 := congrArg BitVec.toNat hpc
  exact step_of_missing_operand hs hrow (by omega)

/-! ### PUSH -/

/-- PUSH checks its register operand, then SP, then its successor address (R58, R75). -/
theorem firstFailing_instrChecks_push (a : Byte) (s : State) :
    firstFailing (instrChecks (.push a) s) =
      if 7 < a.toNat then some .outOfRangeAccess
      else if s.sp = 0 then some .stackUnderflow
      else if 255 < s.pc.toNat + 2 then some .outOfRangeAccess else none := by
  change firstFailing [(decide (7 < a.toNat), _), (s.sp == 0, _), (decide (255 < s.pc.toNat + 2), _)] = _
  rw [firstFailing_cons, firstFailing_beq, firstFailing_cons, firstFailing_nil]

/-- A completed PUSH has lowered SP, stored its operand's register as read after that at the new SP, and written PC
(R75, decision D10). -/
theorem State.completed_push {s : State} {a : Byte} (h : a.toNat < 8) (hsp : s.sp ≠ 0) :
    s.completed (.push a) = { s with
      regs := s.regs.set 7 (s.sp - 1),
      mem := s.mem.write (s.sp.toNat - 1) (s.regs.set 7 (s.sp - 1))[a.toNat],
      pc := s.pc + 2 } := by
  rw [State.completed, namedReg_of_lt h, toNat_sub_one hsp]
  rfl

/-- Settles O24: PUSH's three checks decide what `exec` does; at PC = 255 the fetch fails. -/
theorem pushStoresBelowTheStackPointer : Obligations.PushStoresBelowTheStackPointer := by
  refine ⟨fun a rest => rfl,
    fun a s => ⟨fun ha hsp hfits => ?_, fun ha => ?_, fun ha hsp => ?_, fun ha hsp hover => ?_⟩,
    fun s hs hop hpc => ?_⟩
  · have pass : firstFailing (instrChecks (.push a) s) = none := by
      rw [firstFailing_instrChecks_push, if_neg (by omega), if_neg hsp, if_neg (by omega)]
    rw [exec_of_pass pass, State.completed_push ha hsp]
  · exact exec_of_fail (by rw [firstFailing_instrChecks_push, if_pos ha])
  · exact exec_of_fail (by rw [firstFailing_instrChecks_push, if_neg (by omega), if_pos hsp])
  · exact exec_of_fail (by rw [firstFailing_instrChecks_push, if_neg (by omega), if_neg hsp, if_pos hover])
  · have hrow : decodeOpcode (s.mem.read s.pc.toNat) = some .push := by
      rw [hop]
      rfl
    exact step_of_operand_beyond_memory hs hpc hrow le_rfl

/-! ### POP -/

/-- The value SP holds when POP increments it: the popped value for POP 7, the old SP for every other operand (R76,
decision D10). -/
def State.popFound (s : State) (a : Byte) : Byte := if a = 7 then s.mem.read s.sp.toNat else s.sp

/-- POP checks its register operand, then the value it increments, then its successor address (R58, R76). -/
theorem firstFailing_instrChecks_pop (a : Byte) (s : State) :
    firstFailing (instrChecks (.pop a) s) =
      if 7 < a.toNat then some .outOfRangeAccess
      else if 0xF4 ≤ (s.popFound a).toNat then some .stackOverflow
      else if 255 < s.pc.toNat + 2 then some .outOfRangeAccess else none := by
  change firstFailing
    [(decide (7 < a.toNat), _), (decide (0xF4 ≤ (s.popFound a).toNat), _), (decide (255 < s.pc.toNat + 2), _)] = _
  rw [firstFailing_cons, firstFailing_cons, firstFailing_cons, firstFailing_nil]

/-- Once POP has written its operand's register, SP holds the value that is incremented. -/
theorem State.sp_writeReg_popped (s : State) {a : Byte} (h : a.toNat < 8) :
    (s.writeReg (namedReg a) (s.mem.read s.sp.toNat)).sp = s.popFound a := by
  rw [State.sp_writeReg, if_congr (namedReg_eq_spIndex_iff h) rfl rfl, State.popFound]

/-- A completed POP has written the byte at SP to its operand's register, then raised SP, and written PC (R76). -/
theorem State.completed_pop (s : State) {a : Byte} (h : a.toNat < 8) :
    s.completed (.pop a) = { s with
      regs := (s.regs.set a.toNat (s.mem.read s.sp.toNat)).set 7 (s.popFound a + 1), pc := s.pc + 2 } := by
  rw [State.completed, s.sp_writeReg_popped h, namedReg_of_lt h]
  rfl

/-- Settles O25: POP's three checks decide what `exec` does; at PC = 255 the fetch fails. -/
theorem popLoadsFromTheStackPointer : Obligations.PopLoadsFromTheStackPointer := by
  refine ⟨fun a rest => rfl, fun a v found s hv hfound => ?_, fun s hs hop hpc => ?_⟩
  · have hpop : found = s.popFound a := by rw [hfound, hv, State.popFound]
    subst hv hpop
    refine ⟨fun ha hroom hfits => ?_, fun ha => ?_, fun ha hfull => ?_, fun ha hroom hover => ?_⟩
    · have pass : firstFailing (instrChecks (.pop a) s) = none := by
        rw [firstFailing_instrChecks_pop, if_neg (by omega), if_neg (by omega), if_neg (by omega)]
      rw [exec_of_pass pass, s.completed_pop ha]
    · exact exec_of_fail (by rw [firstFailing_instrChecks_pop, if_pos ha])
    · exact exec_of_fail (by rw [firstFailing_instrChecks_pop, if_neg (by omega), if_pos (by omega)])
    · exact exec_of_fail (by rw [firstFailing_instrChecks_pop, if_neg (by omega), if_neg (by omega), if_pos hover])
  · have hrow : decodeOpcode (s.mem.read s.pc.toNat) = some .pop := by
      rw [hop]
      rfl
    exact step_of_operand_beyond_memory hs hpc hrow le_rfl

end Sys2Proof.Machine
end

section
/-! PROOFS. CALL and RET (R78 and R79 of 45_subroutine.md), and O26 and O27. -/

namespace Sys2Proof.Machine

/-! ### CALL -/

/-- CALL makes PUSH's checks: its return address lies where PUSH's successor address does (R75, R78). -/
theorem instrChecks_call (a : Byte) (s : State) : instrChecks (.call a) s = instrChecks (.push a) s := rfl

/-- CALL checks its register operand, then SP, then its return address (R58, R78). -/
theorem firstFailing_instrChecks_call (a : Byte) (s : State) :
    firstFailing (instrChecks (.call a) s) =
      if 7 < a.toNat then some .outOfRangeAccess
      else if s.sp = 0 then some .stackUnderflow
      else if 255 < s.pc.toNat + 2 then some .outOfRangeAccess else none := by
  rw [instrChecks_call, firstFailing_instrChecks_push]

/-- A completed CALL has lowered SP, stored its return address at the new SP, and written PC with its operand's
register as read after that (R78, decision D10). -/
theorem State.completed_call {s : State} {a : Byte} (h : a.toNat < 8) (hsp : s.sp ≠ 0) :
    s.completed (.call a) = { s with
      regs := s.regs.set 7 (s.sp - 1),
      mem := s.mem.write (s.sp.toNat - 1) (s.pc + 2),
      pc := (s.regs.set 7 (s.sp - 1))[a.toNat] } := by
  rw [← s.completed_call_pc h, ← toNat_sub_one hsp]
  rfl

/-- Settles O26: CALL's three checks decide what `exec` does; at PC = 255 the fetch fails. -/
theorem callPushesTheReturnAddress : Obligations.CallPushesTheReturnAddress := by
  refine ⟨fun a rest => rfl,
    fun a s => ⟨fun ha hsp hfits => ?_, fun ha => ?_, fun ha hsp => ?_, fun ha hsp hover => ?_⟩,
    fun s hs hop hpc => ?_⟩
  · have pass : firstFailing (instrChecks (.call a) s) = none := by
      rw [firstFailing_instrChecks_call, if_neg (by omega), if_neg hsp, if_neg (by omega)]
    rw [exec_of_pass pass, State.completed_call ha hsp]
  · exact exec_of_fail (by rw [firstFailing_instrChecks_call, if_pos ha])
  · exact exec_of_fail (by rw [firstFailing_instrChecks_call, if_neg (by omega), if_pos hsp])
  · exact exec_of_fail (by rw [firstFailing_instrChecks_call, if_neg (by omega), if_neg hsp, if_pos hover])
  · have hrow : decodeOpcode (s.mem.read s.pc.toNat) = some .call := by
      rw [hop]
      rfl
    exact step_of_operand_beyond_memory hs hpc hrow le_rfl

/-! ### RET -/

/-- RET checks the value of SP it increments, and no successor address (R58, R79). -/
theorem firstFailing_instrChecks_ret (s : State) :
    firstFailing (instrChecks .ret s) = if 0xF4 ≤ s.sp.toNat then some .stackOverflow else none := by
  change firstFailing [(decide (0xF4 ≤ s.sp.toNat), _)] = _
  rw [firstFailing_cons, firstFailing_nil]

/-- A completed RET has written PC with the byte at SP, and raised SP (R79). -/
theorem State.completed_ret (s : State) :
    s.completed .ret = { s with pc := s.mem.read s.sp.toNat, regs := s.regs.set 7 (s.sp + 1) } := rfl

/-- Settles O27: RET's one check is on SP, whatever the address. -/
theorem retPopsTheProgramCounter : Obligations.RetPopsTheProgramCounter := by
  refine ⟨fun rest => rfl, fun s => ⟨fun hroom => ?_, fun hfull => ?_⟩⟩
  · have pass : firstFailing (instrChecks .ret s) = none := by
      rw [firstFailing_instrChecks_ret, if_neg (by omega)]
    rw [exec_of_pass pass, s.completed_ret]
  · exact exec_of_fail (by rw [firstFailing_instrChecks_ret, if_pos (by omega)])

end Sys2Proof.Machine
end

section
/-! PROOFS. HALT (R81 of 46_halt.md), and O28. -/

namespace Sys2Proof.Machine

/-- HALT makes no check and changes the run state alone, at every address (R81). -/
theorem exec_halt (s : State) : exec .halt s = .next { s with st := .halted } :=
  exec_of_pass (i := .halt) firstFailing_nil

/-- The byte 0x01 at PC is a whole HALT: it needs no byte after it, so PC may be 255 (R81). -/
theorem decode_bytesAtPc_halt {s : State} (h : s.mem.read s.pc.toNat = 0x01) :
    ∃ rest, decode s.bytesAtPc = .ok (.halt, rest) := by
  rw [s.bytesAtPc_eq_cons, h]
  exact ⟨_, rfl⟩

/-- No operation of the host but `Reset` changes the run state of a stopped Machine (R25, R56). -/
theorem HostOp.perform_st_of_stopped {s : State} (hs : s.st ≠ .running) {op : HostOp} (hop : op ≠ .reset) :
    (op.perform s).2.st = s.st := by
  cases op with
  | reset => exact absurd rfl hop
  | load bytes =>
    change (s.load bytes).2.st = s.st
    by_cases large : 256 < bytes.length
    · rw [State.load_tooLarge_stopped large hs]
    · rw [State.load_fits (by omega)]
  | step => rw [HostOp.perform_step (step_of_stopped hs)]
  | run budget => exact congrArg State.st (State.run_of_stopped hs budget)
  | hostRead addr => exact congrArg State.st (s.hostRead_state addr)
  | hostWrite addr v =>
    change (s.hostWrite addr v).2.st = s.st
    rcases s.hostWrite_state addr v with h | ⟨-, -, h⟩ <;> rw [h]
  | observeSt | observeFaultRec | observeOut => rfl

/-- A stopped Machine becomes `Running` by `Reset` and by no other operation (R56, R81). -/
theorem HostOp.perform_running_iff_of_stopped {s : State} (hs : s.st ≠ .running) (op : HostOp) :
    (op.perform s).2.st = .running ↔ op = .reset := by
  constructor
  · intro hrun
    by_contra hop
    exact hs ((HostOp.perform_st_of_stopped hs hop).symm.trans hrun)
  · rintro rfl
    rfl

/-- Settles O28: HALT has no check to fail, and a halted Machine is a stopped one. -/
theorem haltStopsTheMachine : Obligations.HaltStopsTheMachine := by
  refine ⟨fun rest => rfl, exec_halt, fun s hs hbyte => ?_, fun s hhalted => ?_⟩
  · obtain ⟨rest, hd⟩ := decode_bytesAtPc_halt hbyte
    rw [step_of_decode hs hd, exec_halt]
  · have stopped : s.st ≠ .running := by simp [hhalted]
    exact ⟨decide_eq_false stopped, step_of_stopped stopped, State.run_of_stopped stopped,
      HostOp.perform_running_iff_of_stopped stopped⟩

end Sys2Proof.Machine
end

section
/-! PROOFS. There is no resumption (R94 of 60_exceptions.md, R102 of 70_reset_and_hazards.md), and O52. -/

namespace Sys2Proof.Machine

/-- The whole effect of an operation other than `Reset` on a stopped Machine: memory, and nothing else, may change
(R25, R42, R62). -/
theorem HostOp.perform_of_stopped {s : State} (hs : s.st ≠ .running) {op : HostOp} (hop : op ≠ .reset) :
    ∃ m, (op.perform s).2 = { s with mem := m } := by
  cases op with
  | reset => exact absurd rfl hop
  | load bytes =>
    change ∃ m, (s.load bytes).2 = { s with mem := m }
    by_cases large : 256 < bytes.length
    · exact ⟨s.mem, by rw [State.load_tooLarge_stopped large hs]⟩
    · exact ⟨_, by rw [State.load_fits (by omega)]⟩
  | step => exact ⟨s.mem, by rw [HostOp.perform_step (step_of_stopped hs)]⟩
  | run budget => exact ⟨s.mem, State.run_of_stopped hs budget⟩
  | hostRead addr => exact ⟨s.mem, s.hostRead_state addr⟩
  | hostWrite addr v =>
    rcases s.hostWrite_state addr v with unchanged | ⟨-, -, written⟩
    · exact ⟨s.mem, unchanged⟩
    · exact ⟨_, written⟩
  | observeSt | observeFaultRec | observeOut => exact ⟨s.mem, rfl⟩

/-- Without `Reset` a stopped Machine stays stopped, so every operation of a sequence finds it so, and the whole
sequence too changes memory alone (R94). -/
theorem performAll_of_stopped {ops : List HostOp} {s : State} (hs : s.st ≠ .running) (hops : HostOp.reset ∉ ops) :
    ∃ m, performAll ops s = { s with mem := m } := by
  induction ops generalizing s with
  | nil => exact ⟨s.mem, rfl⟩
  | cons op ops ih =>
    obtain ⟨hop, hrest⟩ := not_or.mp (mt List.mem_cons.mpr hops)
    obtain ⟨m, hm⟩ := HostOp.perform_of_stopped hs (Ne.symm hop)
    rw [performAll_cons, hm]
    exact ih (s := { s with mem := m }) hs hrest

/-- Settles O52: all that is claimed to stay is outside memory, the one thing that may change. -/
theorem stoppedMachineStaysStopped : Obligations.StoppedMachineStaysStopped := by
  refine ⟨fun ops s hs hops => ?_, fun s => rfl⟩
  obtain ⟨m, hm⟩ := performAll_of_stopped hs hops
  rw [hm]
  exact ⟨rfl, rfl, rfl, rfl, rfl⟩

end Sys2Proof.Machine
end

section
/-! PROOFS. The decoder and the encoder (R45 to R48 of 30_encoding.md), and O7, O8, O9 and O10. -/

namespace Sys2Proof

/-- A byte selects a row exactly when it is that row's opcode (R47). -/
theorem decodeOpcode_eq_some_iff (op : Byte) (m : Mnemonic) : decodeOpcode op = some m ↔ op = m.opcode := by
  constructor
  · intro h
    unfold decodeOpcode at h
    split at h <;> cases h
    all_goals exact BitVec.eq_of_toNat_eq ‹_›
  · rintro rfl
    cases m <;> rfl

theorem decodeOne_eq_ok {make : Byte → Instr} {bytes rest : List Byte} {i : Instr}
    (h : decodeOne make bytes = .ok (i, rest)) : ∃ a, i = make a ∧ bytes = a :: rest := by
  match bytes, h with
  | a :: _, rfl => exact ⟨a, rfl, rfl⟩

theorem decodeTwo_eq_ok {make : Byte → Byte → Instr} {bytes rest : List Byte} {i : Instr}
    (h : decodeTwo make bytes = .ok (i, rest)) : ∃ a b, i = make a b ∧ bytes = a :: b :: rest := by
  match bytes, h with
  | a :: b :: _, rfl => exact ⟨a, b, rfl, rfl⟩

/-- The operand bytes a row takes are those of the instruction it gives (R45, R46). -/
theorem decodeOperands_eq_ok {m : Mnemonic} {bytes rest : List Byte} {i : Instr}
    (h : decodeOperands m bytes = .ok (i, rest)) : i.mnemonic = m ∧ bytes = i.operandBytes ++ rest := by
  cases m with
  | ldi | add | mul =>
    obtain ⟨a, b, rfl, rfl⟩ := decodeTwo_eq_ok h
    exact ⟨rfl, rfl⟩
  | prn | push | pop | call =>
    obtain ⟨a, rfl, rfl⟩ := decodeOne_eq_ok h
    exact ⟨rfl, rfl⟩
  | ret | halt =>
    cases h
    exact ⟨rfl, rfl⟩

/-- Bytes that decode are the instruction's encoding and the bytes handed back (R45, R48). -/
theorem eq_encode_of_decode {bytes rest : List Byte} {i : Instr} (h : decode bytes = .ok (i, rest)) :
    bytes = i.encode ++ rest := by
  cases bytes with
  | nil => cases h
  | cons op operands =>
    cases hrow : decodeOpcode op with
    | none => simp [decode_of_no_row hrow] at h
    | some m =>
      rw [decode_of_row hrow] at h
      obtain ⟨rfl, rfl⟩ := decodeOperands_eq_ok h
      rw [(decodeOpcode_eq_some_iff op i.mnemonic).mp hrow, Instr.encode, List.cons_append]

theorem decode_encode (i : Instr) (rest : List Byte) : decode (i.encode ++ rest) = .ok (i, rest) := by
  cases i <;> rfl

/-- Settles O8: the opcode byte fixes the row, and the row the number of operand bytes. -/
theorem decodeAndEncodeAgree : Obligations.DecodeAndEncodeAgree := by
  intro i bytes rest
  constructor
  · exact eq_encode_of_decode
  · rintro rfl
    exact decode_encode i rest

/-- Settles O7: a row's byte is its opcode, and the list holds each row with its opcode and count. -/
theorem opcodeMapIsTheNineRows : Obligations.OpcodeMapIsTheNineRows := by
  intro op m
  rw [decodeOpcode_eq_some_iff]
  cases m <;> simp [Mnemonic.opcode, Mnemonic.operandCount]

/-- Settles O9: each sequence is an encoding with no byte after it. -/
theorem writtenOutWordsDecode : Obligations.WrittenOutWordsDecode :=
  ⟨decode_encode (.ldi 3 255) [], decode_encode (.add 0 1) [], decode_encode (.mul 5 6) [], decode_encode (.prn 6) [],
    decode_encode (.push 1) [], decode_encode (.pop 2) [], decode_encode (.call 7) [], decode_encode .ret [],
    decode_encode .halt []⟩

/-- Settles O10: each of the nine opcodes has the bits the observation says. -/
theorem opcodeBitsAgreeWithTheRows : Obligations.OpcodeBitsAgreeWithTheRows := by
  intro m
  cases m <;> decide

end Sys2Proof
end

section
/-! PROOFS. What an instruction and a step can do, case by case, and O11, O14 and O35. -/

namespace Sys2Proof.Machine

/-! ### One rule for `exec` and one for `step` -/

/-- An instruction answers a next state: what holds after each fault its checks raise, and after its whole effect where
they all pass, holds of that state (R58, R59). -/
theorem exec_next {i : Instr} {s : State} {P : State → Prop}
    (fault : ∀ kind, firstFailing (instrChecks i s) = some kind → P (s.faultedWith kind))
    (complete : firstFailing (instrChecks i s) = none → P (s.completed i)) : ∃ t, exec i s = .next t ∧ P t := by
  cases h : firstFailing (instrChecks i s) with
  | some kind => exact ⟨_, exec_of_fail h, fault kind h⟩
  | none => exact ⟨_, exec_of_pass h, complete h⟩

/-- A step answers a next state: the state itself where the Machine is stopped, else the fault of the first failing
check or the whole effect of the instruction at PC (R57, R58, R62). -/
theorem step_next {s : State} {P : State → Prop} (stopped : s.st ≠ .running → P s)
    (fault : ∀ kind, s.st = .running → firstFailing (stepChecks s) = some kind → P (s.faultedWith kind))
    (complete : ∀ i rest, s.st = .running → decode s.bytesAtPc = .ok (i, rest) →
      firstFailing (instrChecks i s) = none → P (s.completed i)) : ∃ t, step s = .next t ∧ P t := by
  by_cases hs : s.st = .running
  · cases h : firstFailing (stepChecks s) with
    | some kind => exact ⟨_, step_of_fail hs h, fault kind hs h⟩
    | none =>
      obtain ⟨i, rest, hd, hstep⟩ := step_of_pass hs h
      exact ⟨_, hstep, complete i rest hs hd (firstFailing_stepChecks_of_decode hd ▸ h)⟩
  · exact ⟨s, step_of_stopped hs, stopped hs⟩

/-- Settles O14: each of the three cases of a step has its next state. -/
theorem everyStepAnswersNext : Obligations.EveryStepAnswersNext := by
  intro s
  obtain ⟨t, ht, -⟩ := step_next (s := s) (P := fun _ => True) (fun _ => trivial) (fun _ _ _ => trivial)
    (fun _ _ _ _ _ => trivial)
  exact ⟨t, ht⟩

/-- The opcode at PC is that of the instruction the bytes there decode to (R45). -/
theorem opcode_of_decode {s : State} {i : Instr} {rest : List Byte} (h : decode s.bytesAtPc = .ok (i, rest)) :
    s.mem.read s.pc.toNat = i.mnemonic.opcode := by
  have hbytes := eq_encode_of_decode h
  rw [s.bytesAtPc_eq_cons] at hbytes
  exact (List.cons.inj hbytes).1

/-! ### Register operands -/

/-- Where an operand byte is above 7, the register checks fail, whichever byte it is (R49). -/
theorem firstFailing_not_register {vs : List Byte} (h : ∃ v ∈ vs, 7 < v.toNat) :
    firstFailing (vs.map fun v => (decide (7 < v.toNat), .outOfRangeAccess)) = some .outOfRangeAccess := by
  induction vs with
  | nil => simp at h
  | cons v vs ih =>
    rw [List.map_cons, firstFailing_cons]
    split
    · rfl
    · exact ih (by simpa [*] using h)

/-- Register operands are checked first, so that one that names no register is the fault (R49, R58). -/
theorem instrChecks_not_register {i : Instr} (s : State) (h : ∃ v ∈ i.regOperands, 7 < v.toNat) :
    firstFailing (instrChecks i s) = some .outOfRangeAccess := by
  rw [instrChecks, List.append_assoc, firstFailing_append, firstFailing_not_register h, Option.some_or]

/-- Settles O11: 0 to 7 pass `RegIndex` as they stand, and the register check comes before all others. -/
theorem registerOperandAboveSevenFaults : Obligations.RegisterOperandAboveSevenFaults := by
  refine ⟨fun v => regIndex_ok, fun s => rfl, fun v => regIndex_error, fun i => ?_, fun i s h => ?_⟩
  · cases i <;> simp [Instr.wellFormed, Instr.regOperands, isRegOperand]
  · exact exec_of_fail (instrChecks_not_register s h)

/-! ### Fault kinds -/

/-- The kind of a failing check is that of one of the checks. -/
theorem mem_of_firstFailing {checks : List Check} {kind : FaultKind} (h : firstFailing checks = some kind) :
    kind ∈ checks.map Prod.snd := by
  induction checks with
  | nil => cases h
  | cons c checks ih =>
    rw [firstFailing] at h
    split at h
    · cases h
      exact List.mem_cons_self
    · exact List.mem_cons_of_mem _ (ih h)

/-- The checks of an instruction raise the kinds of R89's table alone. -/
theorem instrChecks_faultKinds {i : Instr} {s : State} {kind : FaultKind}
    (h : firstFailing (instrChecks i s) = some kind) : kind ∈ i.faultKinds := by
  have table : (instrChecks i s).map Prod.snd ⊆ i.faultKinds := by
    cases i <;> simp [instrChecks, Instr.regOperands, stackChecks, successorChecks, Instr.faultKinds]
  exact table (mem_of_firstFailing h)

/-- Settles O35: a fault of a running Machine's instruction is the kind of one of its checks. -/
theorem faultKindsByInstruction : Obligations.FaultKindsByInstruction := by
  intro i s hs
  refine exec_next (fun raised hfail kind hkind => ?_) (fun _ kind hkind => ?_)
  · cases hkind
    exact instrChecks_faultKinds hfail
  · rcases State.completed_st_of_running hs i with h | h <;> simp [h] at hkind

end Sys2Proof.Machine
end

section
/-! PROOFS. Memory's canonical form and the two checked primitives (R10, R27, R28), and O6, O38 and O39. -/

namespace Sys2Proof.Machine

/-- A canonical memory lists exactly the cells that do not read 0 (log entry 4). -/
theorem Memory.mem_iff_read {m : Memory} (h : m.wf) (c : Host.Cell) : c ∈ m ↔ c.2 ≠ 0 ∧ m.read c.1 = c.2 := by
  induction m with
  | nil =>
    rw [Memory.read_nil, iff_false_left List.not_mem_nil]
    rintro ⟨hne, hval⟩
    exact hne hval.symm
  | cons d m ih =>
    obtain ⟨hsorted, hcells⟩ := h
    obtain ⟨hd, hm⟩ := List.pairwise_cons.mp hsorted
    have hrest := ih ⟨hm, fun c hc => hcells c (List.mem_cons_of_mem d hc)⟩
    rw [Memory.read_cons, List.mem_cons]
    by_cases haddr : d.1 = c.1
    · rw [if_pos haddr]
      constructor
      · rintro (rfl | hc)
        · exact ⟨(hcells c List.mem_cons_self).2, rfl⟩
        · exact absurd haddr (hd c hc).ne
      · rintro ⟨-, hval⟩
        exact .inl (Prod.ext haddr.symm hval.symm)
    · have hne : c ≠ d := fun e => haddr (congrArg Prod.fst e).symm
      rw [if_neg haddr, or_iff_right hne, hrest]

/-- Settles O6: memories that read alike list the same cells, and their order is fixed. -/
theorem canonicalMemoriesThatReadAlikeAreEqual : Obligations.CanonicalMemoriesThatReadAlikeAreEqual := by
  intro m n hm hn hread
  have hcells : ∀ c, c ∈ m ↔ c ∈ n := fun c => by
    rw [Memory.mem_iff_read hm, Memory.mem_iff_read hn, hread]
  have asymm : Std.Antisymm (fun c d : Host.Cell => c.1 < d.1) := ⟨fun _ _ h h' => absurd h' h.not_gt⟩
  have irrefl : Std.Irrefl (fun c d : Host.Cell => c.1 < d.1) := ⟨fun c => lt_irrefl c.1⟩
  exact hm.1.eq_of_mem_iff hn.1 hcells

/-- Settles O38: the address alone decides. -/
theorem memReadChecksItsAddress : Obligations.MemReadChecksItsAddress :=
  fun s _ => ⟨s.memRead_outside, s.memRead_inRange⟩

/-- Once a cell is written, a checked read at every other address, in range or not, answers as before. -/
theorem State.memRead_unwritten (s : State) {addr x : Int} (v : Byte) (h0 : 0 ≤ addr) (hx : x ≠ addr) :
    State.memRead { s with mem := s.mem.write addr.toNat v } x = s.memRead x := by
  by_cases hin : 0 ≤ x ∧ x ≤ 255
  · have hcell : x.toNat ≠ addr.toNat := by omega
    rw [State.memRead_inRange _ hin.1 hin.2, State.memRead_inRange _ hin.1 hin.2, Memory.read_write_other _ v hcell]
  · have hout : x < 0 ∨ 255 < x := by omega
    rw [State.memRead_outside _ hout, State.memRead_outside _ hout]

/-- Settles O39: in range the write is the memory's, at one cell. -/
theorem memWriteChangesOneCell : Obligations.MemWriteChangesOneCell := by
  intro s addr v
  refine ⟨s.memWrite_outside v, fun h0 h1 => ⟨_, s.memWrite_inRange v h0 h1, ?_,
    fun x => s.memRead_unwritten v h0, rfl, rfl, rfl, rfl, rfl, fun hwf => ?_⟩⟩
  · rw [State.memRead_inRange _ h0 h1, Memory.read_write_same]
  · exact Memory.write_wf hwf (by omega) v

end Sys2Proof.Machine
end

section
/-! PROOFS. The invariant (10_state.md sections 5 and 9), kept by every step and every operation of the host, and O1 to
O5. -/

namespace Sys2Proof.Machine

/-! ### Reset -/

/-- Settles O1: memory lists no cell, and the register file is written out. -/
theorem resetGivesEveryItemItsValue : Obligations.ResetGivesEveryItemItsValue :=
  ⟨Memory.read_nil, by decide, rfl, rfl, rfl, rfl, rfl, rfl⟩

/-- Settles O2: an empty list is canonical, and there is no record in a running Machine. -/
theorem resetMeetsInvariant : Obligations.ResetMeetsInvariant where
  memory := ⟨List.Pairwise.nil, fun _ h => absurd h List.not_mem_nil⟩
  record := rfl

/-! ### The two clauses of the invariant -/

/-- An instruction that completes leaves memory, or is a PUSH or CALL that writes the cell below SP (R33). -/
theorem State.completed_mem (s : State) (i : Instr) :
    (s.completed i).mem = s.mem ∨
      ((∃ a, i = .push a ∨ i = .call a) ∧ ∃ v, (s.completed i).mem = s.mem.write (s.sp - 1).toNat v) := by
  cases i with
  | push a => exact .inr ⟨⟨a, .inl rfl⟩, _, rfl⟩
  | call a => exact .inr ⟨⟨a, .inr rfl⟩, _, rfl⟩
  | ldi | add | mul | prn | pop | ret | halt => exact .inl rfl

theorem State.completed_mem_wf {s : State} (h : s.mem.wf) (i : Instr) : (s.completed i).mem.wf := by
  rcases s.completed_mem i with unchanged | ⟨-, v, written⟩
  · rwa [unchanged]
  · rw [written]
    exact Memory.write_wf h (s.sp - 1).isLt v

/-- Without a fault the record agrees with the run state when there is none (R18). -/
theorem State.recordMatches_iff_of_no_fault {s : State} (h : s.st = .running ∨ s.st = .halted) :
    s.RecordMatches ↔ s.faultRec = none := by
  rcases h with h | h <;> simp only [State.RecordMatches, h]

/-- A fault that the opcode at PC can raise is recorded as R61 says. -/
theorem State.faultedWith_recordMatches {s : State} {kind : FaultKind}
    (h : faultFitsOpcode kind (s.mem.read s.pc.toNat)) : (s.faultedWith kind).RecordMatches := by
  cases kind with
  | programTooLarge => exact h.elim
  | illegalInstruction | outOfRangeAccess | stackUnderflow | stackOverflow => exact ⟨_, h, rfl⟩

/-- An instruction's opcode can raise the kinds of its row of R89's table (R84 to R86). -/
theorem faultFitsOpcode_of_faultKinds {i : Instr} {kind : FaultKind} (h : kind ∈ i.faultKinds) :
    faultFitsOpcode kind i.mnemonic.opcode := by
  cases i with
  | ldi | add | mul | prn | ret =>
    obtain rfl := List.mem_singleton.mp h
    simp [faultFitsOpcode, Instr.mnemonic, Mnemonic.opcode]
  | push | pop | call =>
    obtain rfl | rfl := List.mem_pair.mp h <;> simp [faultFitsOpcode, Instr.mnemonic, Mnemonic.opcode]
  | halt => cases h

/-- An opcode that calls for an operand byte can raise `OutOfRangeAccess` (R84). -/
theorem faultFitsOpcode_of_operands {m : Mnemonic} (h : m.operandCount ≠ 0) :
    faultFitsOpcode .outOfRangeAccess m.opcode := by
  cases m with
  | ldi | add | mul | prn | push | pop | call => simp [faultFitsOpcode, Mnemonic.opcode]
  | ret | halt => exact absurd rfl h

/-- The first failing check of a step raises a kind that the opcode at PC can raise (R83 to R86). -/
theorem stepChecks_fit_opcode {s : State} {kind : FaultKind} (h : firstFailing (stepChecks s) = some kind) :
    faultFitsOpcode kind (s.mem.read s.pc.toNat) := by
  rcases s.decode_bytesAtPc_cases with ⟨hrow, hd⟩ | ⟨m, hrow, ⟨hover, hd⟩ | ⟨-, i, rest, hd, -⟩⟩
  · cases (firstFailing_stepChecks_of_decode_error hd).symm.trans h
    exact hrow
  · cases (firstFailing_stepChecks_of_decode_error hd).symm.trans h
    have hpc := s.pc.isLt
    rw [(decodeOpcode_eq_some_iff _ m).mp hrow]
    exact faultFitsOpcode_of_operands (by omega)
  · rw [firstFailing_stepChecks_of_decode hd] at h
    rw [opcode_of_decode hd]
    exact faultFitsOpcode_of_faultKinds (instrChecks_faultKinds h)

/-! ### The invariant is kept -/

theorem State.Inv.faultedWith {s : State} (h : s.Inv) {kind : FaultKind}
    (hfail : firstFailing (stepChecks s) = some kind) : (s.faultedWith kind).Inv where
  memory := h.memory
  record := State.faultedWith_recordMatches (stepChecks_fit_opcode hfail)

theorem State.Inv.completed {s : State} (h : s.Inv) (hs : s.st = .running) (i : Instr) : (s.completed i).Inv where
  memory := State.completed_mem_wf h.memory i
  record := by
    rw [State.recordMatches_iff_of_no_fault (State.completed_st_of_running hs i), State.completed_faultRec]
    exact (State.recordMatches_iff_of_no_fault (.inl hs)).mp h.record

/-- Only memory changes, and stays canonical. -/
theorem State.Inv.withMem {s : State} (h : s.Inv) {m : Memory} (hm : m.wf) : State.Inv { s with mem := m } where
  memory := hm
  record := h.record

/-- Settles O3: a step leaves the state, or takes a fault that the opcode at PC can raise, or has an instruction's whole
effect. -/
theorem stepKeepsInvariant : Obligations.StepKeepsInvariant := by
  intro s t hinv ht
  obtain ⟨u, hu, hkept⟩ := step_next (P := State.Inv) (fun _ => hinv) (fun _ _ hfail => hinv.faultedWith hfail)
    (fun i _ hs _ _ => hinv.completed hs i)
  cases hu.symm.trans ht
  exact hkept

theorem State.Inv.afterStep {s : State} (h : s.Inv) : s.afterStep.Inv := by
  obtain ⟨t, ht⟩ := everyStepAnswersNext s
  rw [State.afterStep_eq ht]
  exact stepKeepsInvariant s t h ht

theorem State.Inv.load {s : State} (h : s.Inv) (bytes : List Byte) : (s.load bytes).2.Inv := by
  by_cases large : 256 < bytes.length
  · by_cases hs : s.st = .running
    · rw [State.load_tooLarge_running large hs]
      exact ⟨h.memory, rfl⟩
    · rwa [State.load_tooLarge_stopped large hs]
  · rw [State.load_fits (by omega)]
    exact h.withMem (Memory.writeAll_wf h.memory (by omega))

theorem State.Inv.hostWrite {s : State} (h : s.Inv) (addr : Int) (v : Byte) : (s.hostWrite addr v).2.Inv := by
  rcases s.hostWrite_state addr v with unchanged | ⟨h0, h1, written⟩
  · rwa [unchanged]
  · rw [written]
    exact h.withMem (Memory.write_wf h.memory (by omega) v)

/-- Settles O4: `Run` is steps, and the other operations change memory within its 256 cells,
or record `Load`'s fault. -/
theorem hostOperationKeepsInvariant : Obligations.HostOperationKeepsInvariant := by
  intro op s h
  cases op with
  | reset => exact resetMeetsInvariant
  | load bytes => exact h.load bytes
  | step => exact h.afterStep
  | run budget => exact State.run_keeps (P := State.Inv) (fun _ => State.Inv.afterStep) h budget
  | hostRead addr => exact (s.hostRead_state addr).symm ▸ h
  | hostWrite addr v => exact h.hostWrite addr v
  | observeSt | observeFaultRec | observeOut => exact h

/-- A stack fault is on record with one of the two opcodes that can raise it (R85, R86). -/
theorem State.Inv.stackFault {s : State} (h : s.Inv) :
    (s.st = .faulted .stackUnderflow →
      s.faultRec = some ⟨.stackUnderflow, some s.pc, some 0x45⟩ ∨
      s.faultRec = some ⟨.stackUnderflow, some s.pc, some 0x50⟩) ∧
    (s.st = .faulted .stackOverflow →
      s.faultRec = some ⟨.stackOverflow, some s.pc, some 0x46⟩ ∨
      s.faultRec = some ⟨.stackOverflow, some s.pc, some 0x11⟩) := by
  have hrec := h.record
  constructor
  all_goals
    intro hst
    rw [State.RecordMatches, hst] at hrec
    obtain ⟨op, hop, hrec⟩ := hrec
    rcases List.mem_pair.mp hop with rfl | rfl
  exacts [.inl hrec, .inr hrec, .inl hrec, .inr hrec]

/-- Settles O5: reset meets the invariant and every operation keeps it. -/
theorem reachableStatesMeetInvariant : Obligations.ReachableStatesMeetInvariant := by
  intro s hreach
  have hinv : s.Inv := hreach.keeps resetMeetsInvariant hostOperationKeepsInvariant
  exact ⟨hinv, hinv.stackFault⟩

end Sys2Proof.Machine
end

section
/-! PROOFS. The frames of the instructions and of a step (R19, R33), and O29 to O34. -/

namespace Sys2Proof.Machine

/-! ### The operand's register and the cell below SP -/

/-- If all checks of an instruction pass, a register operand names the register of its value (R49). -/
theorem namedReg_val_of_pass {i : Instr} {s : State} (h : firstFailing (instrChecks i s) = none) {v : Byte}
    (hv : v ∈ i.regOperands) : (namedReg v).val = v.toNat := by
  rw [namedReg_of_lt (regOperands_lt_of_pass h v hv)]

/-- A PUSH or CALL that passes its checks has found SP above 0 (R73). -/
theorem sp_ne_zero_of_pass {a : Byte} {i : Instr} {s : State} (hi : i = .push a ∨ i = .call a)
    (h : firstFailing (instrChecks i s) = none) : s.sp ≠ 0 := by
  have hpush : firstFailing (instrChecks (.push a) s) = none := by
    rcases hi with rfl | rfl
    · exact h
    · rwa [← instrChecks_call]
  intro h0
  rw [firstFailing_instrChecks_push, if_pos h0] at hpush
  split at hpush <;> cases hpush

/-! ### Frames of the instructions -/

/-- Settles O29: each of the three writes its destination register and PC. -/
theorem registerInstructionsFrame : Obligations.RegisterInstructionsFrame := by
  intro a b s i hi
  refine exec_next (fun kind _ => ⟨fun _ _ => rfl, fun _ => rfl, rfl, .inr ⟨kind, rfl⟩⟩) (fun pass => ?_)
  have written : a ∈ i.regOperands ∧ ∃ v, s.completed i = (s.writeReg (namedReg a) v).setPc (s.pc + 3) := by
    simp only [List.mem_cons, List.not_mem_nil, or_false] at hi
    rcases hi with rfl | rfl | rfl <;> exact ⟨List.mem_cons_self, _, rfl⟩
  obtain ⟨hmem, v, hv⟩ := written
  have ha : (namedReg a).val = a.toNat := namedReg_val_of_pass pass hmem
  rw [hv]
  refine ⟨fun r hr => ?_, fun _ => rfl, rfl, .inl ⟨rfl, rfl⟩⟩
  have hne : namedReg a ≠ r := fun e => hr (e ▸ ha)
  rw [State.readReg_setPc, State.readReg_writeReg, if_neg hne]

/-- Settles O30: PRN appends to the output and writes PC. -/
theorem prnFrame : Obligations.PrnFrame := by
  intro a s
  refine exec_next (fun kind _ => ⟨fun _ => rfl, fun _ => rfl, .inl rfl, .inr ⟨kind, rfl⟩⟩) (fun pass => ?_)
  have ha : (namedReg a).val = a.toNat := namedReg_val_of_pass pass (List.mem_singleton_self a)
  exact ⟨fun _ => rfl, fun _ => rfl, .inr ⟨namedReg a, ha, rfl⟩, .inl ⟨rfl, rfl⟩⟩

/-- Settles O31: both lower SP, write the cell there, and change nothing else but PC; with SP = 0 neither completes. -/
theorem storingInstructionsFrame : Obligations.StoringInstructionsFrame := by
  intro a s i hi
  have hpc : i = .push a ∨ i = .call a := List.mem_pair.mp hi
  refine exec_next (fun kind _ => ⟨fun _ _ => rfl, fun _ _ _ _ => rfl, fun _ _ _ => rfl, rfl, .inr ⟨kind, rfl⟩⟩)
    (fun pass => ?_)
  have hdec := State.stackDec_ok (sp_ne_zero_of_pass hpc pass)
  have stored : ∃ v p, s.completed i =
      State.setPc { s.setSp (s.sp - 1) with mem := s.mem.write (s.sp - 1).toNat v } p := by
    rcases hpc with rfl | rfl <;> exact ⟨_, _, rfl⟩
  obtain ⟨v, p, hv⟩ := stored
  rw [hv, hdec]
  refine ⟨fun r hr => ?_, fun u hu addr haddr => ?_, fun kind hkind => (nomatch hkind), rfl, .inl ⟨rfl, rfl⟩⟩
  · exact (s.readReg_setSp r _).trans (if_neg hr.symm)
  · cases hu
    rw [State.sp_setSp] at haddr
    exact Memory.read_write_other s.mem v haddr

/-- Settles O32: POP writes its operand's register, and both then SP and PC. -/
theorem loadingInstructionsFrame : Obligations.LoadingInstructionsFrame := by
  intro a s
  constructor
  · refine exec_next (fun kind _ => ⟨fun _ _ _ => rfl, fun _ => rfl, rfl, .inr ⟨kind, rfl⟩⟩) (fun pass =>
      ⟨fun r hsp hr => ?_, fun _ => rfl, rfl, .inl ⟨rfl, rfl⟩⟩)
    have ha : (namedReg a).val = a.toNat := namedReg_val_of_pass pass (List.mem_singleton_self a)
    have hne : namedReg a ≠ r := fun e => hr (e ▸ ha)
    rw [State.completed, State.readReg_setPc, State.readReg_setSp, if_neg hsp.symm, State.readReg_writeReg, if_neg hne]
  · refine exec_next (fun kind _ => ⟨fun _ _ => rfl, fun _ => rfl, rfl, .inr ⟨kind, rfl⟩⟩) (fun pass =>
      ⟨fun r hsp => ?_, fun _ => rfl, rfl, .inl ⟨rfl, rfl⟩⟩)
    rw [State.completed, State.readReg_setPc, State.readReg_setSp, if_neg hsp.symm]

/-! ### Frames of a step -/

/-- Settles O33: only a completed PUSH or CALL writes memory, at SP - 1. -/
theorem stepWritesAtMostTheCellBelowSp : Obligations.StepWritesAtMostTheCellBelowSp := by
  intro s
  refine step_next (fun _ _ _ => rfl) (fun _ _ _ _ _ => rfl) (fun i rest _ hd pass addr haddr => ?_)
  rcases s.completed_mem i with unchanged | ⟨⟨a, hi⟩, v, written⟩
  · rw [unchanged]
  · have hsp : s.sp ≠ 0 := sp_ne_zero_of_pass hi pass
    have hop : s.mem.read s.pc.toNat ∈ ([0x45, 0x50] : List Byte) := by
      rw [opcode_of_decode hd, List.mem_pair]
      rcases hi with rfl | rfl
      exacts [.inl rfl, .inr rfl]
    have hcell : addr ≠ (s.sp - 1).toNat := by
      rw [toNat_sub_one hsp]
      exact fun e => haddr ⟨hop, hsp, e⟩
    rw [written, Memory.read_write_other s.mem v hcell]

/-- The values an instruction that completes appends to the output: PRN's one, and no other's (R19, R71). -/
def State.emitted (s : State) : Instr → List Byte
  | .prn a => [s.readReg (namedReg a)]
  | _ => []

theorem State.completed_out (s : State) (i : Instr) : (s.completed i).out = s.out ++ s.emitted i := by
  cases i with
  | prn a => rfl
  | ldi | add | mul | push | pop | call | ret | halt => exact (List.append_nil s.out).symm

/-- The operand byte of a fetched PRN is the one after the opcode (R45). -/
theorem operand_of_decode_prn {s : State} {a : Byte} {rest : List Byte} (h : decode s.bytesAtPc = .ok (.prn a, rest)) :
    s.mem.read (s.pc.toNat + 1) = a := by
  have hbytes := eq_encode_of_decode h
  rw [s.bytesAtPc_eq_cons] at hbytes
  have hoperands : s.mem.cellsFrom (s.pc.toNat + 1) (min 2 (255 - s.pc.toNat)) = a :: rest :=
    (List.cons.inj hbytes).2
  generalize min 2 (255 - s.pc.toNat) = n at hoperands
  cases n with
  | zero => cases hoperands
  | succ n =>
    rw [Memory.cellsFrom_succ] at hoperands
    exact (List.cons.inj hoperands).1

/-- Settles O34: of all ways a step can end, only a completed PRN appends, and what it appends is its operand's
register. -/
theorem onlyPrnProducesOutput : Obligations.OnlyPrnProducesOutput := by
  intro s
  refine step_next (fun _ => .inl rfl) (fun _ _ _ => .inl rfl) (fun i rest _ hd pass => ?_)
  rw [s.completed_out]
  cases i with
  | prn a =>
    have ha : (namedReg a).val = a.toNat := namedReg_val_of_pass pass (List.mem_singleton_self a)
    refine .inr ⟨opcode_of_decode hd, namedReg a, ?_, rfl⟩
    rw [operand_of_decode_prn hd, ha, BitVec.ofNat_toNat, BitVec.setWidth_eq]
  | ldi | add | mul | push | pop | call | ret | halt => exact .inl (List.append_nil s.out)

end Sys2Proof.Machine
end

section
/-! PROOFS. What does not influence an instruction or a step (R13, R18, R19), and O36 and O37. -/

namespace Sys2Proof.Machine

/-! ### A register outside R13's table -/

theorem State.writeReg_comm (s : State) {i j : Fin 8} (h : i ≠ j) (v w : Byte) :
    (s.writeReg i v).writeReg j w = (s.writeReg j w).writeReg i v := by
  have hval : i.val ≠ j.val := Fin.val_ne_of_ne h
  simp only [State.writeReg, Vector.set_comm _ _ hval]

theorem State.setSp_writeReg (s : State) {r : Fin 8} (h : r ≠ Config.spIndex) (v w : Byte) :
    (s.writeReg r v).setSp w = (s.setSp w).writeReg r v := s.writeReg_comm h v w

theorem State.writeReg_readReg (s : State) (r : Fin 8) : s.writeReg r (s.readReg r) = s := by
  simp [State.writeReg, State.readReg]

/-- Register operands are among the registers an instruction uses (R13). -/
theorem regOperands_used {i : Instr} {v : Byte} (h : v ∈ i.regOperands) : v.toNat ∈ i.regsUsed := by
  cases i with
  | ldi | prn =>
    obtain rfl := List.mem_singleton.mp h
    exact List.mem_cons_self
  | add | mul => exact List.mem_map_of_mem (f := BitVec.toNat) h
  | push | pop | call =>
    obtain rfl := List.mem_singleton.mp h
    exact List.mem_cons_of_mem _ List.mem_cons_self
  | ret | halt => cases h

/-- What an unused register holds makes no difference to the checks (R13, R58). -/
theorem instrChecks_writeReg {i : Instr} {r : Fin 8} (h : r.val ∉ i.regsUsed) (s : State) (v : Byte) :
    instrChecks i (s.writeReg r v) = instrChecks i s := by
  cases i with
  | ldi | add | mul | prn | halt => rfl
  | push | pop | call | ret =>
    have hsp : (s.writeReg r v).sp = s.sp := by
      rw [State.sp_writeReg, if_neg]
      rintro rfl
      exact h List.mem_cons_self
    simp only [instrChecks, stackChecks, hsp]
    rfl

/-- What an unused register holds makes no difference to what a completed instruction does, and the register keeps it
(R13). -/
theorem State.completed_writeReg {i : Instr} {r : Fin 8} (h : r.val ∉ i.regsUsed) {s : State}
    (pass : firstFailing (instrChecks i s) = none) (v : Byte) :
    (s.writeReg r v).completed i = (s.completed i).writeReg r v := by
  have hop : ∀ a ∈ i.regOperands, r ≠ namedReg a := fun a ha e =>
    h (e ▸ namedReg_val_of_pass pass ha ▸ regOperands_used ha)
  have hsp : Config.spIndex.val ∈ i.regsUsed → r ≠ Config.spIndex := fun hmem e => h (e ▸ hmem)
  cases i with
  | ldi a imm =>
    have ha := hop a List.mem_cons_self
    simp only [State.completed, s.writeReg_comm ha]
    rfl
  | add a b | mul a b =>
    have ha := hop a List.mem_cons_self
    have hb := hop b (List.mem_cons_of_mem _ List.mem_cons_self)
    simp only [State.completed, s.writeReg_comm ha, State.readReg_writeReg, if_neg ha, if_neg hb]
    rfl
  | prn a =>
    have ha := hop a List.mem_cons_self
    simp only [State.completed, State.readReg_writeReg, if_neg ha]
    rfl
  | push a | call a =>
    have ha := hop a List.mem_cons_self
    have h7 := hsp List.mem_cons_self
    simp only [State.completed, State.sp_writeReg, if_neg h7, s.setSp_writeReg h7, State.readReg_writeReg, if_neg ha]
    rfl
  | pop a =>
    have ha := hop a List.mem_cons_self
    have h7 := hsp List.mem_cons_self
    simp only [State.completed, State.sp_writeReg, if_neg h7, s.writeReg_comm ha, State.setSp_writeReg _ h7]
    rfl
  | ret =>
    have h7 := hsp List.mem_cons_self
    simp only [State.completed, State.sp_writeReg, if_neg h7, s.setSp_writeReg h7]
    rfl
  | halt => rfl

/-- Settles O36: the checks and the effect do not look at the register. That the instruction leaves it is the case of
writing what it holds. -/
theorem unnamedRegistersDoNotMatter : Obligations.UnnamedRegistersDoNotMatter := by
  intro i s r v hr
  have same : ∀ w, ∃ t, exec i s = .next t ∧ exec i (s.writeReg r w) = .next (t.writeReg r w) := fun w =>
    exec_next (fun kind hfail => exec_of_fail ((instrChecks_writeReg hr s w).symm ▸ hfail)) (fun pass => by
      rw [exec_of_pass ((instrChecks_writeReg hr s w).symm ▸ pass), State.completed_writeReg hr pass])
  obtain ⟨t, ht, hv⟩ := same v
  obtain ⟨u, hu, hkept⟩ := same (s.readReg r)
  rw [s.writeReg_readReg, ht] at hkept
  cases hu.symm.trans ht
  have hleft : t.readReg r = s.readReg r := by
    rw [(Host.Outcome.next.inj hkept : t = t.writeReg r (s.readReg r)), State.readReg_writeReg, if_pos rfl]
  exact ⟨t, ht, hleft, hv⟩

/-! ### The output and the fault record -/

/-- The state with another output and another fault record. -/
def State.withRecords (s : State) (r : Option FaultRecord) (o : List Byte) : State :=
  { s with faultRec := r, out := o }

theorem State.completed_withRecords (s : State) (r : Option FaultRecord) (o : List Byte) (i : Instr) :
    (s.withRecords r o).completed i = (s.completed i).withRecords r (o ++ s.emitted i) := by
  cases i with
  | prn a => rfl
  | ldi | add | mul | push | pop | call | ret | halt =>
    simp only [State.emitted, List.append_nil]
    rfl

/-- Settles O37: the bytes at PC, the checks and the effect are the same for both states, and so are the values a
completed instruction emits. -/
theorem outputAndFaultRecordAreNotRead : Obligations.OutputAndFaultRecordAreNotRead := by
  rintro s ⟨-, -, -, -, r, o⟩ rfl rfl rfl rfl
  change ∃ t w emitted, _ ∧ step (s.withRecords r o) = .next w ∧ _
  by_cases hs : s.st = .running
  · cases hc : firstFailing (stepChecks s) with
    | some kind =>
      exact ⟨_, _, [], step_of_fail hs hc, step_of_fail (s := s.withRecords r o) hs hc, rfl, rfl, rfl, rfl,
        (List.append_nil s.out).symm, (List.append_nil o).symm⟩
    | none =>
      obtain ⟨i, rest, hd, hstep⟩ := step_of_pass hs hc
      have pass : firstFailing (instrChecks i s) = none := firstFailing_stepChecks_of_decode hd ▸ hc
      have hother : step (s.withRecords r o) = .next ((s.withRecords r o).completed i) :=
        (step_of_decode (s := s.withRecords r o) hs hd).trans (exec_of_pass (s := s.withRecords r o) pass)
      rw [s.completed_withRecords] at hother
      exact ⟨_, _, s.emitted i, hstep, hother, rfl, rfl, rfl, rfl, s.completed_out i, rfl⟩
  · exact ⟨_, _, [], step_of_stopped hs, step_of_stopped (s := s.withRecords r o) hs, rfl, rfl, rfl, rfl,
      (List.append_nil s.out).symm, (List.append_nil o).symm⟩

end Sys2Proof.Machine
end

section
/-! PROOFS. The laws of the ALU's two operations (42_alu.md section 3), and O42. -/

namespace Sys2Proof.Machine

/-- The exact sum modulo 256 is the sum of 8-bit words. -/
theorem aluResult_exactSum (p q : Byte) : aluResult (exactSum p q) = p + q := by
  rw [aluResult, exactSum, BitVec.ofNat_add, BitVec.ofNat_toNat, BitVec.ofNat_toNat, BitVec.setWidth_eq,
    BitVec.setWidth_eq]

/-- The exact product modulo 256 is the product of 8-bit words. -/
theorem aluResult_exactProduct (p q : Byte) : aluResult (exactProduct p q) = p * q := by
  rw [aluResult, exactProduct, BitVec.ofNat_mul, BitVec.ofNat_toNat, BitVec.ofNat_toNat, BitVec.setWidth_eq,
    BitVec.setWidth_eq]

/-- Settles O42: the operations are those of 8-bit words, which a two's-complement reading does not change. -/
theorem aluLaws : Obligations.AluLaws := by
  intro p q r
  simp only [aluResult_exactSum, aluResult_exactProduct]
  refine ⟨BitVec.add_comm p q, BitVec.mul_comm p q, BitVec.add_assoc p q r, BitVec.mul_assoc p q r,
    BitVec.mul_add, BitVec.add_zero p, BitVec.mul_one p, BitVec.mul_zero, ?_, ?_⟩
  · rw [BitVec.ofInt_add, BitVec.ofInt_toInt, BitVec.ofInt_toInt]
  · rw [BitVec.ofInt_mul, BitVec.ofInt_toInt, BitVec.ofInt_toInt]

end Sys2Proof.Machine
end

section
/-! PROOFS. The stack as software meets it (44_stack.md, 45_subroutine.md), and O43 to O46. -/

namespace Sys2Proof.Machine

/-! ### Instructions whose checks pass -/

theorem push_passes {s : State} {a : Byte} (ha : a.toNat < 8) (hsp : s.sp ≠ 0) (hfits : s.pc.toNat + 2 ≤ 255) :
    firstFailing (instrChecks (.push a) s) = none := by
  rw [firstFailing_instrChecks_push, if_neg (by omega), if_neg hsp, if_neg (by omega)]

theorem pop_passes {s : State} {a : Byte} (ha : a.toNat < 8) (hroom : (s.popFound a).toNat < 0xF4)
    (hfits : s.pc.toNat + 2 ≤ 255) : firstFailing (instrChecks (.pop a) s) = none := by
  rw [firstFailing_instrChecks_pop, if_neg (by omega), if_neg (by omega), if_neg (by omega)]

/-- A POP that passes its checks has found less than 0xF4 to increment (R74). -/
theorem popFound_lt_of_pass {s : State} {a : Byte} (h : firstFailing (instrChecks (.pop a) s) = none) :
    (s.popFound a).toNat < 0xF4 := by
  by_contra hfull
  rw [firstFailing_instrChecks_pop, if_pos (not_lt.mp hfull)] at h
  split at h <;> cases h

theorem sp_lt_of_ret_pass {s : State} (h : firstFailing (instrChecks .ret s) = none) : s.sp.toNat < 0xF4 := by
  by_contra hfull
  rw [firstFailing_instrChecks_ret, if_pos (not_lt.mp hfull)] at h
  cases h

/-! ### What the stack instructions leave in SP, the top of the stack and the registers -/

theorem State.completed_push_sp (s : State) (a : Byte) : (s.completed (.push a)).sp = s.sp - 1 := s.sp_setSp _

theorem State.completed_push_top (s : State) (a : Byte) :
    (s.completed (.push a)).mem.read (s.sp - 1).toNat = (s.setSp (s.sp - 1)).readReg (namedReg a) :=
  Memory.read_write_same s.mem _ _

theorem State.completed_call_sp (s : State) (a : Byte) : (s.completed (.call a)).sp = s.sp - 1 := s.sp_setSp _

theorem State.completed_call_top (s : State) (a : Byte) :
    (s.completed (.call a)).mem.read (s.sp - 1).toNat = s.pc + 2 := Memory.read_write_same s.mem _ _

theorem State.completed_pop_sp (s : State) {a : Byte} (h : a.toNat < 8) :
    (s.completed (.pop a)).sp = s.popFound a + 1 := by
  rw [State.completed, State.sp_setPc, State.sp_setSp, s.sp_writeReg_popped h]

/-- Any register but SP holds the popped byte after a POP into it (R76). -/
theorem State.completed_pop_readReg (s : State) {a : Byte} (h : namedReg a ≠ 7) :
    (s.completed (.pop a)).readReg (namedReg a) = s.mem.read s.sp.toNat := by
  rw [State.completed, State.readReg_setPc, State.readReg_setSp, if_neg h.symm, State.readReg_writeReg, if_pos rfl]

theorem State.completed_ret_sp (s : State) : (s.completed .ret).sp = s.sp + 1 := s.sp_setSp _

/-! ### Matched pairs -/

theorem toNat_ofNat_fin (n : Fin 8) : (BitVec.ofNat 8 n.val).toNat = n.val := by
  rw [BitVec.toNat_ofNat]
  omega

theorem ofNat_fin_lt (n : Fin 8) : (BitVec.ofNat 8 n.val).toNat < 8 := (toNat_ofNat_fin n).symm ▸ n.isLt

/-- The operand byte that spells a register's index names that register. -/
theorem namedReg_ofNat (n : Fin 8) : namedReg (BitVec.ofNat 8 n.val) = n := by
  rw [namedReg_of_lt (ofNat_fin_lt n), Fin.ext_iff]
  exact toNat_ofNat_fin n

theorem ne_zero_of_toNat_pos {v : Byte} (h : 0 < v.toNat) : v ≠ 0 := fun e => h.ne' (congrArg BitVec.toNat e)

/-- With SP and the cell there as PUSH n left them, POP m increments the SP that PUSH left, where n and m are 7 together
or not at all: what PUSH 7 stores is that SP (R75, R76, decision D10). -/
theorem State.popFound_pushed {s u : State} {n m : Fin 8} (h7 : m = 7 ↔ n = 7) (husp : u.sp = s.sp - 1)
    (hcell : u.mem.read u.sp.toNat = (s.setSp (s.sp - 1)).readReg n) :
    u.popFound (BitVec.ofNat 8 m.val) = s.sp - 1 := by
  rw [← u.sp_writeReg_popped (ofNat_fin_lt m), namedReg_ofNat, State.sp_writeReg]
  split
  · rw [hcell, State.readReg_setSp, if_pos (h7.mp ‹_›).symm]
  · exact husp

/-- In the same case POP m puts into register m what register n held, and restores SP. -/
theorem exec_pop_pushed {s u : State} {n m : Fin 8} (h7 : m = 7 ↔ n = 7) (h0 : s.sp ≠ 0) (htop : s.sp.toNat ≤ 0xF4)
    (hpc : u.pc.toNat ≤ 253) (husp : u.sp = s.sp - 1)
    (hcell : u.mem.read u.sp.toNat = (s.setSp (s.sp - 1)).readReg n) :
    ∃ w, exec (.pop (BitVec.ofNat 8 m.val)) u = .next w ∧ w.mem = u.mem ∧ w.readReg m = s.readReg n ∧
      w.sp = s.sp := by
  have hfound := State.popFound_pushed h7 husp hcell
  have hroom : (s.sp - 1).toNat < 0xF4 := by
    have := BitVec.toNat_pos_of_ne_zero h0
    rw [toNat_sub_one h0]
    omega
  have hsp : (u.completed (.pop (BitVec.ofNat 8 m.val))).sp = s.sp := by
    rw [u.completed_pop_sp (ofNat_fin_lt m), hfound, BitVec.sub_add_cancel]
  refine ⟨_, exec_of_pass (pop_passes (ofNat_fin_lt m) (hfound ▸ hroom) (by omega)), rfl, ?_, hsp⟩
  by_cases hm : m = 7
  · obtain rfl := hm
    obtain rfl := h7.mp rfl
    exact hsp
  · have hread := u.completed_pop_readReg ((namedReg_ofNat m).symm ▸ hm)
    have hn : Config.spIndex ≠ n := fun e => hm (h7.mpr e.symm)
    rw [namedReg_ofNat] at hread
    rw [hread, hcell, State.readReg_setSp, if_neg hn]

/-- Settles O43: the pair restores where POP increments the SP that PUSH left; where it does not, POP 7 after PUSH of
another register, memory still is as before. -/
theorem pushThenPopRestores : Obligations.PushThenPopRestores := by
  intro s n m hlow htop hpc
  have h0 : s.sp ≠ 0 := ne_zero_of_toNat_pos hlow
  refine ⟨_, exec_of_pass (push_passes (ofNat_fin_lt n) h0 (by omega)), fun u husp hcell hupc => ?_⟩
  rw [State.completed_push_sp] at husp hcell
  rw [State.completed_push_top, namedReg_ofNat, ← husp] at hcell
  by_cases h7 : m = 7 ↔ n = 7
  · obtain ⟨w, hw, hmem, hreg, hsp⟩ := exec_pop_pushed h7 h0 htop hupc husp (husp ▸ hcell)
    exact ⟨w, hw, hmem, fun e => ⟨e ▸ hreg, hsp⟩, fun _ _ => ⟨hreg, hsp⟩⟩
  · have neither : ∀ w : State, (m = n → w.readReg n = s.readReg n ∧ w.sp = s.sp) ∧
        (n ≠ 7 → m ≠ 7 → w.readReg m = s.readReg n ∧ w.sp = s.sp) := fun w =>
      ⟨fun e => absurd (e ▸ Iff.rfl) h7, fun hn hm => absurd (iff_of_false hm hn) h7⟩
    exact exec_next (fun kind _ => ⟨rfl, neither _⟩) (fun _ => ⟨rfl, neither _⟩)

/-- An SP that starts at its top and is lowered by each of 244 pushes counts them down to 0. -/
theorem sp_of_pushes {trace : Nat → State} (hstart : (trace 0).sp = Config.spTop)
    (hnext : ∀ k < 244, (trace k).sp ≠ 0 → (trace (k + 1)).sp = (trace k).sp - 1) {k : Nat} (hk : k ≤ 244) :
    (trace k).sp.toNat = 244 - k := by
  induction k with
  | zero =>
    rw [hstart]
    rfl
  | succ k ih =>
    have hbefore := ih (by omega)
    have h0 : (trace k).sp ≠ 0 := ne_zero_of_toNat_pos (by omega)
    rw [hnext k hk h0, toNat_sub_one h0]
    omega

/-- Settles O44: SP counts the pushes down from 244, so that it is above 0 for each of them and 0 for the next. -/
theorem stackHolds244BytesFromItsTop : Obligations.StackHolds244BytesFromItsTop := by
  intro trace a ha hstart hpc hpush
  have completes : ∀ k, (trace k).sp ≠ 0 → exec (.push a) (trace k) = .next ((trace k).completed (.push a)) :=
    fun k h0 => exec_of_pass (push_passes ha h0 (by have := hpc k; omega))
  have lowered : ∀ k < 244, (trace k).sp ≠ 0 → (trace (k + 1)).sp = (trace k).sp - 1 := by
    intro k hk h0
    obtain ⟨t, ht, hnext⟩ := hpush k hk
    cases (completes k h0).symm.trans ht
    rw [hnext, State.completed_push_sp]
  refine ⟨fun k hk => ?_, exec_of_fail ?_⟩
  · have hsp := sp_of_pushes hstart lowered hk.le
    have h0 : (trace k).sp ≠ 0 := ne_zero_of_toNat_pos (by omega)
    refine ⟨_, completes k h0, rfl, ?_⟩
    rw [State.completed_push_sp, toNat_sub_one h0]
    omega
  · have hempty : (trace 244).sp = 0 := BitVec.eq_of_toNat_eq (sp_of_pushes hstart lowered le_rfl)
    rw [firstFailing_instrChecks_push, if_neg (by omega), if_pos hempty]

/-- With SP as PUSH or CALL left it, RET goes to the byte there and restores SP. -/
theorem exec_ret_pushed {s u : State} (h0 : s.sp ≠ 0) (htop : s.sp.toNat ≤ 0xF4) (husp : u.sp = s.sp - 1) :
    ∃ w, exec .ret u = .next w ∧ w.pc = u.mem.read (s.sp - 1).toNat ∧ w.sp = s.sp := by
  have hpos := BitVec.toNat_pos_of_ne_zero h0
  have pass : firstFailing (instrChecks .ret u) = none := by
    rw [firstFailing_instrChecks_ret, husp, toNat_sub_one h0, if_neg (by omega)]
  refine ⟨_, exec_of_pass pass, ?_, ?_⟩
  · rw [← husp]
    rfl
  · rw [State.completed_ret_sp, husp, BitVec.sub_add_cancel]

/-- Settles O45: RET finds at SP what CALL or PUSH stored there. -/
theorem callThenRetResumes : Obligations.CallThenRetResumes := by
  intro s n hlow htop hpc
  have h0 : s.sp ≠ 0 := ne_zero_of_toNat_pos hlow
  have pass := push_passes (ofNat_fin_lt n) h0 (by omega)
  refine ⟨⟨_, exec_of_pass ((instrChecks_call _ s).symm ▸ pass), fun u husp hcell => ?_⟩, fun hn => ?_⟩
  · rw [State.completed_call_sp] at husp hcell
    obtain ⟨w, hw, hwpc, hwsp⟩ := exec_ret_pushed h0 htop husp
    refine ⟨w, hw, ?_, hwsp⟩
    rw [hwpc, hcell, State.completed_call_top]
    exact BitVec.toNat_add_of_lt (show s.pc.toNat + 2 < 2 ^ 8 by omega)
  · obtain ⟨w, hw, hwpc, hwsp⟩ := exec_ret_pushed h0 htop (s.completed_push_sp (BitVec.ofNat 8 n.val))
    refine ⟨_, w, exec_of_pass pass, hw, ?_, hwsp⟩
    rw [hwpc, State.completed_push_top, namedReg_ofNat, State.readReg_setSp, if_neg hn.symm]

/-! ### SP within its top -/

/-- SP after an instruction that does not write register 7 explicitly: as before, or one less or one more within the
bounds of R73 and R74. -/
theorem State.completed_sp_cases {s : State} {i : Instr} (hdest : i.destination ≠ some 7)
    (pass : firstFailing (instrChecks i s) = none) :
    (s.completed i).sp = s.sp ∨ (s.sp ≠ 0 ∧ (s.completed i).sp = s.sp - 1) ∨
      (s.sp.toNat < 0xF4 ∧ (s.completed i).sp = s.sp + 1) := by
  have hne : ∀ {a : Byte}, a ∈ i.regOperands → i.destination = some a.toNat → namedReg a ≠ Config.spIndex :=
    fun {a} ha hi e => hdest (by rw [hi, ← namedReg_val_of_pass pass ha, e]; rfl)
  cases i with
  | ldi a | add a | mul a =>
    left
    rw [State.completed, State.sp_setPc, State.sp_writeReg, if_neg (hne List.mem_cons_self rfl)]
  | prn | halt => exact .inl rfl
  | push a => exact .inr (.inl ⟨sp_ne_zero_of_pass (.inl rfl) pass, s.completed_push_sp a⟩)
  | call a => exact .inr (.inl ⟨sp_ne_zero_of_pass (.inr rfl) pass, s.completed_call_sp a⟩)
  | pop a =>
    have ha : a.toNat < 8 := regOperands_lt_of_pass pass a List.mem_cons_self
    have hfound : s.popFound a = s.sp :=
      if_neg (mt (namedReg_eq_spIndex_iff ha).mpr (hne List.mem_cons_self rfl))
    exact .inr (.inr ⟨hfound ▸ popFound_lt_of_pass pass, hfound ▸ s.completed_pop_sp ha⟩)
  | ret => exact .inr (.inr ⟨sp_lt_of_ret_pass pass, s.completed_ret_sp⟩)

/-- Settles O46: a fault leaves SP, and the checks keep the two implicit updates from passing 0 and the top. -/
theorem implicitUpdatesKeepSpWithinItsTop : Obligations.ImplicitUpdatesKeepSpWithinItsTop := by
  intro s i htop hdest
  refine exec_next (fun kind _ => ⟨htop, .inl rfl⟩) (fun pass => ?_)
  rcases State.completed_sp_cases hdest pass with same | ⟨h0, lowered⟩ | ⟨hroom, raised⟩
  · exact ⟨same ▸ htop, .inl same⟩
  · have hpos := BitVec.toNat_pos_of_ne_zero h0
    rw [lowered, toNat_sub_one h0]
    omega
  · rw [raised, toNat_add_one hroom]
    omega

end Sys2Proof.Machine
end

section
/-! PROOFS. Runs (R63 and R64 of 40_execution_cycle.md), and O48, O49 and O50. -/

namespace Sys2Proof.Machine

/-! ### Run and Step -/

theorem State.afterStep_of_stopped {s : State} (hs : s.st ≠ .running) : s.afterStep = s :=
  State.afterStep_eq (step_of_stopped hs)

/-- One more step of budget is a step first, also for a stopped Machine, which it leaves (R62, R63). -/
theorem State.run_succ (s : State) (n : Nat) : s.run (n + 1) = s.afterStep.run n := by
  by_cases hs : s.st = .running
  · exact State.run_succ_of_running hs n
  · rw [State.afterStep_of_stopped hs, State.run_of_stopped hs, State.run_of_stopped hs]

theorem State.run_add (s : State) (m n : Nat) : s.run (m + n) = (s.run m).run n := by
  induction m generalizing s with
  | zero => rw [Nat.zero_add, State.run_zero]
  | succ m ih => rw [Nat.add_right_comm, State.run_succ, State.run_succ, ih]

/-- The last step of a run (R63). -/
theorem State.run_succ_last (s : State) (n : Nat) : s.run (n + 1) = (s.run n).afterStep := by
  rw [State.run_add, State.run_succ, State.run_zero]

theorem performAll_steps (s : State) (n : Nat) : performAll (List.replicate n .step) s = s.run n := by
  induction n generalizing s with
  | zero => rfl
  | succ n ih =>
    rw [List.replicate_succ, performAll_cons, State.run_succ]
    exact ih s.afterStep

/-- Settles O48: `run_succ` is the one fact about `Run`; a stopped Machine takes no step. -/
theorem runIsRepeatedStep : Obligations.RunIsRepeatedStep := by
  intro s
  refine ⟨performAll_steps s, s.run_add, fun n hn m hm => ?_, fun hs budget => ?_⟩
  · obtain ⟨k, rfl⟩ := Nat.exists_eq_add_of_le hm
    rw [State.run_add, State.run_of_stopped hn]
  · rw [HostOp.perform, State.run_of_stopped hs]

/-! ### A run without end -/

/-- A Machine about to run PUSH R0, which RET follows at address 2: R0 holds 0, so that RET comes back to PUSH. -/
def loopAtPush : State := { State.reset with mem := [(0, 0x45), (2, 0x11)] }

/-- The same Machine about to run RET. The byte pushed is 0, what the cell held before. -/
def loopAtRet : State := (loopAtPush.setSp 0xF3).setPc 2

theorem loopAtPush_afterStep : loopAtPush.afterStep = loopAtRet := by decide

theorem loopAtRet_afterStep : loopAtRet.afterStep = loopAtPush := by decide

theorem loop_run (n : Nat) : loopAtPush.run n = loopAtPush ∨ loopAtPush.run n = loopAtRet :=
  State.run_keeps (P := fun s => s = loopAtPush ∨ s = loopAtRet)
    (fun s h => by
      rcases h with rfl | rfl
      · exact .inr loopAtPush_afterStep
      · exact .inl loopAtRet_afterStep)
    (.inl rfl) n

theorem loop_running (n : Nat) : (loopAtPush.run n).st = .running := by
  rcases loop_run n with h | h <;> rw [h] <;> rfl

/-- Settles O49: PUSH R0 and RET with R0 = 0 go round for ever, through two states. -/
theorem runNeedNotReturn : Obligations.RunNeedNotReturn :=
  ⟨loopAtPush, fun n _ hfault => (nomatch (loop_running n).symm.trans hfault), loop_running⟩

/-! ### Safe runs -/

/-- A step of a running Machine takes no fault exactly when every check passes (R58). -/
theorem State.afterStep_no_fault_iff {s : State} (hs : s.st = .running) :
    (∀ kind, s.afterStep.st ≠ .faulted kind) ↔ firstFailing (stepChecks s) = none := by
  simp only [ne_eq, State.afterStep_faulted_iff hs, Option.eq_none_iff_forall_ne_some]

/-- Settles O50: a run reaches a fault only by a step, and a step takes one only by a failing check. -/
theorem safeRunIffEveryCheckPasses : Obligations.SafeRunIffEveryCheckPasses := by
  intro s hstart
  constructor
  · intro safe n hn
    rw [← State.afterStep_no_fault_iff hn, ← State.run_succ_last]
    exact safe (n + 1)
  · intro passes n
    induction n with
    | zero => exact hstart
    | succ n ih =>
      rw [State.run_succ_last]
      by_cases hn : (s.run n).st = .running
      · exact (State.afterStep_no_fault_iff hn).mpr (passes n hn)
      · rwa [State.afterStep_of_stopped hn]

end Sys2Proof.Machine
end

section
/-! PROOFS. What a step fetches after a store, and what the host can and cannot reach (R25, R38, R57, R104), and O13,
O47, O56 and O57. -/

namespace Sys2Proof.Machine

/-! ### Stores are seen -/

/-- Given cells that agree with memory, a running Machine's step does what they spell (R38, R57). -/
theorem State.stepRunsCells_of_reads {u : State} (hu : u.st = .running) {cell : Nat → Byte}
    (h : ∀ addr, cell addr = u.mem.read addr) : u.StepRunsCells cell := by
  rw [State.StepRunsCells, bytesFrom_of_reads h]
  exact ⟨fun i rest => step_of_decode hu, fun op => step_of_decode_error hu, step_of_decode_error hu⟩

/-- The same where one cell is given its stored byte. -/
theorem State.stepRunsCells_of_cell {u : State} (hu : u.st = .running) {addr : Nat} {v : Byte}
    (h : u.mem.read addr = v) : u.StepRunsCells (fun x => if x = addr then v else u.mem.read x) := by
  refine State.stepRunsCells_of_reads hu (fun x => ?_)
  split
  · subst x
    exact h.symm
  · rfl

/-- Settles O47: what a store left in a cell is what memory reads there, and the fetch reads memory. -/
theorem storesAreSeenByTheNextFetch : Obligations.StoresAreSeenByTheNextFetch := by
  intro s u hu
  refine ⟨fun addr v hcell => ?_, fun image hfit hcells => ?_, fun a ha hsp hfits => ?_⟩
  · apply State.stepRunsCells_of_cell hu
    have haddr := addr.isLt
    rw [hcell, s.hostWrite_inRange v (by omega) (by omega)]
    exact Memory.read_write_same s.mem addr.toNat v
  · refine State.stepRunsCells_of_reads hu (fun x => ?_)
    split
    · rw [hcells x ‹_›, State.load_fits hfit]
      exact (s.mem.read_image ‹_›).symm
    · rfl
  · have pass := push_passes ha hsp hfits
    have hbelow := toNat_sub_one hsp
    have passCall := (instrChecks_call a s).symm ▸ pass
    refine ⟨⟨_, exec_of_pass pass, fun hcell => ?_⟩, ⟨_, exec_of_pass passCall, fun hcell => ?_⟩⟩
    · rw [State.completed_push_sp, State.completed_push_top, namedReg_of_lt ha, hbelow] at hcell
      exact State.stepRunsCells_of_cell hu hcell
    · rw [State.completed_call_sp, State.completed_call_top, hbelow] at hcell
      exact State.stepRunsCells_of_cell hu hcell

/-! ### The host's reach -/

theorem State.load_keeps (s : State) (bytes : List Byte) :
    (s.load bytes).2.regs = s.regs ∧ (s.load bytes).2.pc = s.pc ∧ (s.load bytes).2.out = s.out := by
  by_cases large : 256 < bytes.length
  · by_cases hs : s.st = .running
    · rw [State.load_tooLarge_running large hs]
      exact ⟨rfl, rfl, rfl⟩
    · rw [State.load_tooLarge_stopped large hs]
      exact ⟨rfl, rfl, rfl⟩
  · rw [State.load_fits (by omega)]
    exact ⟨rfl, rfl, rfl⟩

/-- Settles O56: the operations left change memory, the run state and the record at most. -/
theorem hostCannotReachTheRegisters : Obligations.HostCannotReachTheRegisters := by
  refine ⟨fun op s hreset hstep hrun => ?_, fun s => ⟨rfl, rfl, rfl⟩⟩
  cases op with
  | reset => exact absurd rfl hreset
  | step => exact absurd rfl hstep
  | run budget => exact absurd rfl (hrun budget)
  | load bytes => exact s.load_keeps bytes
  | hostRead addr =>
    rw [HostOp.perform, s.hostRead_state]
    exact ⟨rfl, rfl, rfl⟩
  | hostWrite addr v =>
    rw [HostOp.perform]
    rcases s.hostWrite_state addr v with h | ⟨-, -, h⟩ <;> rw [h] <;> exact ⟨rfl, rfl, rfl⟩
  | observeSt | observeFaultRec | observeOut => exact ⟨rfl, rfl, rfl⟩

/-! ### Placing an instruction -/

/-- Bytes written from an address upward are read back from there. -/
theorem Memory.read_writeAll_offset (m : Memory) (addr : Nat) {vs : List Byte} {k : Nat} (h : k < vs.length) :
    (m.writeAll addr vs).read (addr + k) = vs[k] := by
  rw [Memory.read_writeAll, dif_pos (by omega)]
  simp

theorem Memory.read_writeAll_outside (m : Memory) {addr x : Nat} {vs : List Byte}
    (h : ¬ (addr ≤ x ∧ x < addr + vs.length)) : (m.writeAll addr vs).read x = m.read x := by
  rw [Memory.read_writeAll, dif_neg (by omega)]

/-- Bytes written from an address upward are the cells from there. -/
theorem Memory.cellsFrom_writeAll (m : Memory) (addr : Nat) (vs : List Byte) :
    (m.writeAll addr vs).cellsFrom addr vs.length = vs :=
  List.ext_getElem (by simp) fun k _ hk => by
    simpa [Memory.cellsFrom] using m.read_writeAll_offset addr hk

/-- The longest instruction has three bytes (R45). -/
theorem length_encode_le (i : Instr) : i.encode.length ≤ 3 := by
  have hlen : i.encode.length = 1 + i.mnemonic.operandCount := by
    cases i <;> rfl
  have hcount := i.mnemonic.operandCount_le
  omega

theorem State.bytesAtPc_eq_cellsFrom (s : State) :
    s.bytesAtPc = s.mem.cellsFrom s.pc.toNat (min 3 (256 - s.pc.toNat)) := rfl

/-- An instruction's encoding, written at PC with any bytes after it, is what the bytes at PC decode to. -/
theorem State.decode_of_written {s : State} {m : Memory} {bytes rest : List Byte} {i : Instr}
    (hmem : s.mem = m.writeAll s.pc.toNat bytes) (hfits : s.pc.toNat + bytes.length ≤ 256)
    (hd : decode bytes = .ok (i, rest)) : ∃ rest', decode s.bytesAtPc = .ok (i, rest') := by
  have hbytes := eq_encode_of_decode hd
  have hlen : i.encode.length ≤ bytes.length := by
    rw [hbytes, List.length_append]
    omega
  have hthree := length_encode_le i
  have hfetched : s.bytesAtPc.take i.encode.length = i.encode := by
    rw [s.bytesAtPc_eq_cellsFrom, Memory.take_cellsFrom _ _ (by omega), ← Memory.take_cellsFrom _ _ hlen, hmem,
      Memory.cellsFrom_writeAll, hbytes, List.take_left]
  rw [← List.take_append_drop i.encode.length s.bytesAtPc, hfetched]
  exact ⟨_, decode_encode i _⟩

/-- Settles O57: the image is written at address 0, where PC is after reset; without one the byte there is 0. -/
theorem bootRunsTheFirstInstruction : Obligations.BootRunsTheFirstInstruction := by
  refine ⟨fun s image rest i hfit hd => ?_, _, illegalOpcodeFaults.2 State.reset rfl (by decide), rfl, rfl⟩
  have loaded : performAll [.reset, .load image] s = { State.reset with mem := State.reset.mem.writeAll 0 image } :=
    congrArg Prod.snd (State.load_fits hfit)
  rw [loaded]
  obtain ⟨rest', hd'⟩ := State.decode_of_written (s := { State.reset with mem := State.reset.mem.writeAll 0 image })
    rfl (show 0 + image.length ≤ 256 by omega) hd
  exact step_of_decode rfl hd'

/-- With three cells from PC on, placing a word is writing its bytes there. -/
theorem State.withFetchWord_mem {s : State} (nbits w : Nat) (hpc : s.pc.toNat ≤ 253) :
    (s.withFetchWord nbits w).mem = s.mem.writeAll s.pc.toNat (tableBytes nbits w) := by
  have hall : (tableBytes nbits w).take (256 - s.pc.toNat) = tableBytes nbits w :=
    List.take_of_length_le (show 3 ≤ 256 - s.pc.toNat by omega)
  change s.mem.writeAll s.pc.toNat ((tableBytes nbits w).take (256 - s.pc.toNat)) = _
  rw [hall]

theorem decode_of_decodeTableWord {nbits w : Nat} {i : Instr} (h : decodeTableWord nbits w = some i) :
    ∃ rest, decode (tableBytes nbits w) = .ok (i, rest) := by
  unfold decodeTableWord at h
  split at h
  · cases h
    exact ⟨_, ‹_›⟩
  · cases h

/-- Settles O13: the word's three bytes are written at PC, which stays. -/
theorem placedTableWordIsExecuted : Obligations.PlacedTableWordIsExecuted := by
  intro s nbits w i hs hpc hword
  have hmem := s.withFetchWord_mem nbits w hpc
  obtain ⟨rest, hd⟩ := decode_of_decodeTableWord hword
  obtain ⟨rest', hfetched⟩ := State.decode_of_written hmem (show s.pc.toNat + 3 ≤ 256 by omega) hd
  refine ⟨step_of_decode rfl hfetched, rfl, rfl, hs.symm, if_pos ((State.running_iff s).mpr hs), rfl,
    fun addr haddr => ?_⟩
  rw [hmem]
  exact Memory.read_writeAll_outside s.mem haddr

end Sys2Proof.Machine
end
